-- ==== Sys2Proof/Word.lean ====
section
/-! DEFINITION. The Word (00_scope.md R7, R9): a Word is an integer between WMIN and WMAX. The model holds every Word as
an `Int`, as R9 computes and as 20_memory.md R54 asks ("a model represents each cell as one integer"); `representable`
says when an integer is a Word, and that every Int the state holds is one is part of the invariant (Safety.lean). -/

namespace Sys2Proof

/-- `2^(WORD_BITS-1)`, the size of either half of the Word range (R7). -/
def wordHalf (bits : Nat) : Nat := 2 ^ (bits - 1)

/-- WMIN, the least Word (R7). -/
def wmin (bits : Nat) : Int := -(wordHalf bits : Int)

/-- WMAX, the greatest Word (R7). -/
def wmax (bits : Nat) : Int := (wordHalf bits : Int) - 1

/-- R9's `representable(v)`. -/
def representable (bits : Nat) (v : Int) : Bool := decide (wmin bits ≤ v) && decide (v ≤ wmax bits)

end Sys2Proof
end

