-- ==== Sys2Proof/Syntax.lean ====
section
/-! DEFINITION. The instructions of CORE (30_encoding.md R84, R85) as data: one constructor per row of the opcode table. -/

namespace Sys2Proof

/-- The three parameter modes (R83). -/
inductive Mode where
  | position
  | immediate
  | relative
  deriving DecidableEq, Repr

/-- One operand slot: its mode and its raw operand, a whole Word used as it stands (R80, R86). -/
structure Operand where
  mode : Mode
  raw : Int
  deriving DecidableEq, Repr

/-- The assembler's operand `v` (R95): Position mode. -/
abbrev Operand.pos (v : Int) : Operand := ⟨.position, v⟩

/-- The assembler's operand `#v` (R95): Immediate mode. -/
abbrev Operand.imm (v : Int) : Operand := ⟨.immediate, v⟩

/-- The assembler's operand `@v` (R95): Relative mode. -/
abbrev Operand.rel (v : Int) : Operand := ⟨.relative, v⟩

/-- The ten opcodes (R84). -/
inductive Opcode where
  | add
  | multiply
  | input
  | output
  | jumpIfTrue
  | jumpIfFalse
  | lessThan
  | equals
  | adjustRelativeBase
  | halt
  deriving DecidableEq, Repr

/-- What R93's Decode returns for one instruction word. A slot above the opcode's arity has no mode digit of its own
and stands here as Position, the digit 0 it must hold (R81, R90). -/
structure Header where
  op : Opcode
  mode1 : Mode
  mode2 : Mode
  mode3 : Mode
  deriving DecidableEq, Repr

/-- The ten instructions, operands in slot order, so a write slot comes last (R84, R85). A write slot's Immediate mode
is kept: Decode accepts it and the step raises the error (R91, R93). -/
inductive Instr where
  | add (a b dst : Operand)
  | multiply (a b dst : Operand)
  | input (dst : Operand)
  | output (a : Operand)
  | jumpIfTrue (cond target : Operand)
  | jumpIfFalse (cond target : Operand)
  | lessThan (a b dst : Operand)
  | equals (a b dst : Operand)
  | adjustRelativeBase (a : Operand)
  | halt
  deriving DecidableEq, Repr

/-- Why a run of Words is no instruction. -/
inductive DecodeError where
  /-- There is no word to decode: the fetch at `pc ≥ len` of 40_execution_cycle.md R111. -/
  | noInstructionWord
  /-- R82, R88: a negative word, or an opcode outside the ten. -/
  | unknownOpcode
  /-- R89, R90: a mode digit above 2, or a nonzero digit above the mode digits. -/
  | unsupportedParameterMode
  /-- 40_execution_cycle.md R113: an operand slot is missing. -/
  | missingOperand
  deriving DecidableEq, Repr

end Sys2Proof
end

