-- ==== Sys2Proof/Decode.lean ====
section
/-! DEFINITION. Decoding and encoding (30_encoding.md R80 to R98): decimal digits of whole Words, no bits. -/

namespace Sys2Proof

/-- `digit(w, k)`, decimal digit `k` of a non-negative number, digit 0 the units (00_scope.md R9). -/
def digit (n k : Nat) : Nat := n / 10 ^ k % 10

/-- The mode a digit names (R83); no other digit names one (R89). -/
def Mode.ofDigit (d : Nat) : Option Mode :=
  if d = 0 then some .position else if d = 1 then some .immediate else if d = 2 then some .relative else none

/-- The digit of a mode (R83). -/
def Mode.digit (m : Mode) : Nat :=
  match m with
  | .position => 0
  | .immediate => 1
  | .relative => 2

/-- The opcode column of R84. -/
def Opcode.number (op : Opcode) : Nat :=
  match op with
  | .add => 1
  | .multiply => 2
  | .input => 3
  | .output => 4
  | .jumpIfTrue => 5
  | .jumpIfFalse => 6
  | .lessThan => 7
  | .equals => 8
  | .adjustRelativeBase => 9
  | .halt => 99

/-- The arity column of R84. -/
def Opcode.arity (op : Opcode) : Nat :=
  match op with
  | .add => 3
  | .multiply => 3
  | .input => 1
  | .output => 1
  | .jumpIfTrue => 2
  | .jumpIfFalse => 2
  | .lessThan => 3
  | .equals => 3
  | .adjustRelativeBase => 1
  | .halt => 0

/-- The write-slot column of R84; slot 1 for Input (90_conflicts.md C1). -/
def Opcode.writeSlot (op : Opcode) : Option Nat :=
  match op with
  | .add => some 3
  | .multiply => some 3
  | .input => some 1
  | .output => none
  | .jumpIfTrue => none
  | .jumpIfFalse => none
  | .lessThan => some 3
  | .equals => some 3
  | .adjustRelativeBase => none
  | .halt => none

/-- The opcode set (R84); every other value is illegal (R88). -/
def Opcode.ofNumber (n : Nat) : Option Opcode :=
  match n with
  | 1 => some .add
  | 2 => some .multiply
  | 3 => some .input
  | 4 => some .output
  | 5 => some .jumpIfTrue
  | 6 => some .jumpIfFalse
  | 7 => some .lessThan
  | 8 => some .equals
  | 9 => some .adjustRelativeBase
  | 99 => some .halt
  | _ => none

/-- The mode of slot `k` of an instruction word (R81, R89); Position for a slot the opcode does not have. -/
def slotMode (n arity k : Nat) : Option Mode :=
  if k ≤ arity then Mode.ofDigit (digit n (k + 1)) else some .position

/-- R93's Decode, on one instruction word. -/
def decodeWord (w : Int) : Except DecodeError Header :=
  if w < 0 then .error .unknownOpcode
  else
    match Opcode.ofNumber (w.toNat % 100) with
    | none => .error .unknownOpcode
    | some op =>
      match slotMode w.toNat op.arity 1, slotMode w.toNat op.arity 2, slotMode w.toNat op.arity 3 with
      | some m1, some m2, some m3 =>
        if w.toNat / 10 ^ (op.arity + 2) = 0 then .ok ⟨op, m1, m2, m3⟩ else .error .unsupportedParameterMode
      | _, _, _ => .error .unsupportedParameterMode

/-- Format F1 (R85): one raw operand after the word. -/
def slots1 (mk : Operand → Instr) (h : Header) (raws : List Int) : Except DecodeError (Instr × List Int) :=
  match raws with
  | r1 :: rest => .ok (mk ⟨h.mode1, r1⟩, rest)
  | _ => .error .missingOperand

/-- Format F2 (R85): two raw operands after the word. -/
def slots2 (mk : Operand → Operand → Instr) (h : Header) (raws : List Int) :
    Except DecodeError (Instr × List Int) :=
  match raws with
  | r1 :: r2 :: rest => .ok (mk ⟨h.mode1, r1⟩ ⟨h.mode2, r2⟩, rest)
  | _ => .error .missingOperand

/-- Format F3 (R85): three raw operands after the word. -/
def slots3 (mk : Operand → Operand → Operand → Instr) (h : Header) (raws : List Int) :
    Except DecodeError (Instr × List Int) :=
  match raws with
  | r1 :: r2 :: r3 :: rest => .ok (mk ⟨h.mode1, r1⟩ ⟨h.mode2, r2⟩ ⟨h.mode3, r3⟩, rest)
  | _ => .error .missingOperand

/-- The instruction a header and the Words after it make (R80, R84); an absent slot is a missing operand (R113). -/
def decodeOperands (h : Header) (raws : List Int) : Except DecodeError (Instr × List Int) :=
  match h.op with
  | .add => slots3 .add h raws
  | .multiply => slots3 .multiply h raws
  | .input => slots1 .input h raws
  | .output => slots1 .output h raws
  | .jumpIfTrue => slots2 .jumpIfTrue h raws
  | .jumpIfFalse => slots2 .jumpIfFalse h raws
  | .lessThan => slots3 .lessThan h raws
  | .equals => slots3 .equals h raws
  | .adjustRelativeBase => slots1 .adjustRelativeBase h raws
  | .halt => .ok (.halt, raws)

/-- Decoding the Words from `pc` on: the instruction and the Words after it, or the name of the first check of R122 rows
1 to 5 that fails. Total on every list of Words. -/
def decode (ws : List Int) : Except DecodeError (Instr × List Int) :=
  match ws with
  | [] => .error .noInstructionWord
  | w :: raws =>
    match decodeWord w with
    | .error e => .error e
    | .ok h => decodeOperands h raws

/-- The opcode of an instruction (R84). -/
def Instr.opcode (i : Instr) : Opcode :=
  match i with
  | .add _ _ _ => .add
  | .multiply _ _ _ => .multiply
  | .input _ => .input
  | .output _ => .output
  | .jumpIfTrue _ _ => .jumpIfTrue
  | .jumpIfFalse _ _ => .jumpIfFalse
  | .lessThan _ _ _ => .lessThan
  | .equals _ _ _ => .equals
  | .adjustRelativeBase _ => .adjustRelativeBase
  | .halt => .halt

/-- The operand slots of an instruction, in slot order (R84). -/
def Instr.operands (i : Instr) : List Operand :=
  match i with
  | .add a b dst => [a, b, dst]
  | .multiply a b dst => [a, b, dst]
  | .input dst => [dst]
  | .output a => [a]
  | .jumpIfTrue cond target => [cond, target]
  | .jumpIfFalse cond target => [cond, target]
  | .lessThan a b dst => [a, b, dst]
  | .equals a b dst => [a, b, dst]
  | .adjustRelativeBase a => [a]
  | .halt => []

/-- The length of an instruction in Words (R87). -/
def Instr.length (i : Instr) : Nat := 1 + i.opcode.arity

/-- The mode digits' share of the instruction word, the first slot's digit weighing `scale` (R94). -/
def modeSum (scale : Nat) (os : List Operand) : Nat :=
  match os with
  | [] => 0
  | o :: rest => scale * o.mode.digit + modeSum (10 * scale) rest

/-- R94: the instruction word, then the raw operands. -/
def encode (i : Instr) : List Int :=
  ((i.opcode.number + modeSum 100 i.operands : Nat) : Int) :: i.operands.map Operand.raw

/-- The pseudo-instruction `JMP t` (R96): `JT #1, t`. -/
def Instr.jmp (t : Operand) : Instr := .jumpIfTrue (.imm 1) t

/-- The pseudo-instruction `MOV s, d` (R96): `ADD s, #0, d`. -/
def Instr.mov (s d : Operand) : Instr := .add s (.imm 0) d

/-- The assembler's spelling of an operand (R95): `v`, `#v` or `@v`. -/
def Operand.asm (o : Operand) : String :=
  match o.mode with
  | .position => toString o.raw
  | .immediate => "#" ++ toString o.raw
  | .relative => "@" ++ toString o.raw

/-- The assembler's mnemonics (R95). -/
def Opcode.asm (op : Opcode) : String :=
  match op with
  | .add => "ADD"
  | .multiply => "MUL"
  | .input => "IN"
  | .output => "OUT"
  | .jumpIfTrue => "JT"
  | .jumpIfFalse => "JF"
  | .lessThan => "LT"
  | .equals => "EQ"
  | .adjustRelativeBase => "ARB"
  | .halt => "HALT"

/-- The assembler line of an instruction (R95): the mnemonic, then the operands separated by commas. -/
def Instr.asm (i : Instr) : String :=
  match i.operands with
  | [] => i.opcode.asm
  | os => i.opcode.asm ++ " " ++ String.intercalate ", " (os.map Operand.asm)

/-- The two's-complement reading of 64 bits, the default WORD_BITS (R7). -/
def signed64 (n : Nat) : Int := if n < 2 ^ 63 then (n : Int) else (n : Int) - 2 ^ 64

/-- The `count` Words, from number `k` on, of a string of bits whose Word 0 is its 64 low bits. -/
def tableWordsFrom (bits k count : Nat) : List Int :=
  match count with
  | 0 => []
  | c + 1 => signed64 (bits / 2 ^ (64 * k) % 2 ^ 64) :: tableWordsFrom bits (k + 1) c

/-- The four Words (the longest instruction, R84) of the opcode-table word `w`; every bit from `nbits` on is 0. The
table numbers no bits of its own: its rows are decimal (R98); DESIGN CHOICE (log 3): a Word is 64 bits here. -/
def tableWords (nbits w : Nat) : List Int := tableWordsFrom (w % 2 ^ nbits) 0 4

/-- The instruction the decoder reads from an opcode-table word. -/
def decodeTableWord (nbits w : Nat) : Option Instr :=
  match decode (tableWords nbits w) with
  | .ok (i, _) => some i
  | .error _ => none

end Sys2Proof
end

