-- ==== Sys2Proof/Config.lean ====
section
/-! DEFINITION. The implementation parameters of one CORE (00_scope.md R7), fixed when it is constructed. -/

namespace Sys2Proof

/-- R7's parameters. They are per-device constants and "an argument of the model": `State` carries one `Config`, no
operation writes it, and a statement about every state holds for every choice of them. -/
structure Config where
  /-- WORD_BITS, the width of a Word (R7, D1: at least 64). -/
  wordBits : Nat
  /-- MAX_LEN, the greatest number of Memory cells (R7, R24, D28: at most WMAX). -/
  maxLen : Nat
  /-- PAD_CAPACITY, the capacity `construct` pads to, or none (R7, R342, D16). -/
  padCapacity : Option Nat
  deriving DecidableEq, Repr

/-- The constraints R7 and R24 put on the parameters: `WORD_BITS ≥ 64` and `MAX_LEN ≤ WMAX`. -/
abbrev Config.valid (c : Config) : Prop := 64 ≤ c.wordBits ∧ (c.maxLen : Int) ≤ wmax c.wordBits

/-- The parameters `State.reset` is built with. WORD_BITS = 64 is the spec's default (R7, D1). DESIGN CHOICE (log 2,
unsafe): MAX_LEN = 2^63 - 1, the largest value R7 allows, and no padding, the setting 95_test_vectors.md assumes; both
are OPEN in the spec. -/
def Config.default : Config := ⟨64, 2 ^ 63 - 1, none⟩

end Sys2Proof
end

