-- ==== Sys2Proof/Machine/State.lean ====
section
/-! DEFINITION. The state of one CORE instance as plain data (10_state.md R20, R34), the transactions its host makes
(47_controller.md R260) and what they return (R261, 60_exceptions.md R301). -/

namespace Sys2Proof.Machine

/-- The Memory (R22): `len` Words indexed from 0. `cells` lists the nonzero ones by rising index, so that equal
memories are equal data; a cell not listed holds 0, which construction gives it (70_reset_and_hazards.md R342, R344).
DESIGN CHOICE (log 9, safe): a list of Words, not of bytes (20_memory.md R54). -/
structure Memory where
  /-- The number of cells (R23). -/
  len : Nat
  /-- Index and contents of every nonzero cell, indices strictly rising. -/
  cells : List (Nat × Int)
  deriving DecidableEq, Repr

/-- The controller state (R32). -/
inductive Ctl where
  | idle
  | exec
  deriving DecidableEq, Repr

/-- Which entry point is executing: `run` goes on after an Output, the other two return (R262 to R265). -/
inductive Entry where
  | run
  | runSuspended
  deriving DecidableEq, Repr

/-- A Suspension, plain data (R261). -/
inductive Suspension where
  | running (inputs : List Int) (output : Int)
  | halted (output : Option Int)
  deriving DecidableEq, Repr

/-- The error kinds (R300). -/
inductive ErrorKind where
  | parseError
  | outOfBounds
  | missingOperand
  | unsupportedParameterMode
  | immediateWriteTarget
  | emptyInput
  | unknownOpcode
  | emptyProgram
  | overflow
  deriving DecidableEq, Repr

/-- The error record an operation returns (R301); it is a result, not retained state (R33). -/
structure ErrorRecord where
  kind : ErrorKind
  ip : Option Nat
  addr : Option Int
  deriving DecidableEq, Repr

/-- A `raise E(pc, addr)` before the error entry fills in the instruction pointer (00_scope.md R13). -/
structure Raise where
  kind : ErrorKind
  addr : Option Int
  deriving DecidableEq, Repr

/-- What a host operation returns (R260). -/
inductive HostResult where
  /-- `write` and `mimic` return nothing. -/
  | nothing
  /-- `construct` and `construct_empty` return a new instance. -/
  | created
  /-- `read` returns a Word. -/
  | word (v : Int)
  /-- `run_suspended` and `resume` return a Suspension. -/
  | suspension (s : Suspension)
  /-- `run` returns the last output, if any. -/
  | lastOutput (v : Option Int)
  /-- Any operation that fails returns an error record. -/
  | error (e : ErrorRecord)
  deriving DecidableEq, Repr

/-- The host operations (R260). `mimic` carries the other device's Memory as it stands when `mimic` is called, all
that R271 takes from it (DESIGN CHOICE, log 6, safe). A source text is a list of characters (DESIGN CHOICE, log 13,
safe). -/
inductive HostOp where
  | construct (text : List Char)
  | constructEmpty (capacity : Nat)
  | mimic (other : Memory)
  | read (address : Int)
  | write (address value : Int)
  | run (inputs : List Int)
  | runSuspended (inputs : List Int)
  | resume (suspension : Suspension)
  deriving DecidableEq, Repr

/-- Why the machine would stop with a fault: never. Every error of CORE is taken as R304 says, in a next state whose
controller is idle and whose host has the error record (DEDUCED, log 5, safe). -/
inductive Fault where
  deriving DecidableEq, Repr

/-- Why a step is given no meaning. -/
inductive Refusal where
  /-- Raised by an arm of `exec` whose instruction has no meaning yet; no arm is one. Safe. -/
  | notModelled (mnemonic : String)
  /-- Raised by `construct`, `construct_empty` and `mimic` when the Memory would have more than MAX_LEN cells: "a model
  must refuse it" (70_reset_and_hazards.md R343, D28; for the other two DEDUCED, log 7). Safe. -/
  | exceedsMaxLen
  /-- Raised by a host operation whose argument is not of the type R260 gives it: a number that is no Word, or a
  Memory that is not one of this device's. DESIGN CHOICE (log 8). Safe. -/
  | illTypedHostOperation
  /-- Raised by a host's call on an instance of a system that is executing, and by a `mimic` of one: no host operation
  overlaps an execution (47_controller.md R272, D18; 93_implementation_defined.md I16 "refuse"; for the instance that is
  copied DEDUCED, log 15). Safe. -/
  | instanceExecuting
  /-- Raised by a host's call with a handle that names no instance of the system, and by a `mimic`, called or
  in an instance's list of operations, whose Memory is not that of an idle instance of the system at that moment
  (47_controller.md R271).
  DESIGN CHOICE (log 15). Safe. -/
  | noSuchInstance
  deriving DecidableEq, Repr

/-- The state of one CORE instance. `mem`, `pc`, `rb`, `ctl`, `inq` and `last` are R34's elements; `config` holds its
fixed parameters (R7); `entry` is the working state of `run` (R265); `hostOps` and `hostResults` are the two sides of
the host interface (R260): what the host is going to ask, and what it has been answered (DESIGN CHOICE, log 10, safe). -/
structure State where
  /-- The implementation parameters (00_scope.md R7). -/
  config : Config
  /-- `M` and `len` (R22, R23). -/
  mem : Memory
  /-- The Instruction Pointer (R25). -/
  pc : Nat
  /-- The Relative Base, a signed Word (R28). -/
  rb : Int
  /-- The controller state (R32). -/
  ctl : Ctl
  /-- The entry point in progress, read only while `ctl = exec` (R265). -/
  entry : Entry
  /-- The pending input queue, front first (R30). -/
  inq : List Int
  /-- The last output (R31). -/
  last : Option Int
  /-- The host's operations still to come, next one first; taken only while `ctl = idle` (R272). -/
  hostOps : List HostOp
  /-- The results returned to the host, oldest first; no rule reads them (R33). -/
  hostResults : List HostResult
  deriving DecidableEq, Repr

/-- The reset state of an instance with the given Memory (70_reset_and_hazards.md R345): pc = 0, rb = 0, IDLE.
DESIGN CHOICE (log 1, unsafe): the queue is empty, there is no last output and the entry kind is `run_suspended`; the
spec leaves the first two unspecified and unobservable (R32) and does not name the third. -/
def State.fresh (c : Config) (m : Memory) (ops : List HostOp) (results : List HostResult) : State :=
  { config := c, mem := m, pc := 0, rb := 0, ctl := .idle, entry := .runSuspended, inq := [], last := none,
    hostOps := ops, hostResults := results }

/-- The machine right after reset: `construct_empty(0)` (70_reset_and_hazards.md R344) with the default parameters. No
program is in it: one is loaded by the host (R347, log 4). -/
def State.reset : State := State.fresh Config.default ⟨0, []⟩ [] []

end Sys2Proof.Machine
end

