-- ==== Sys2Proof/Machine/Ops.lean ====
section
/-! DEFINITION. The shared operations: Memory access (20_memory.md R51, R52), instruction fetch (40_execution_cycle.md
R111, R115), error entry (60_exceptions.md R304) and the return paths of the controller (47_controller.md R263, R267). -/

namespace Sys2Proof.Machine

/-- The outcome of one step. -/
abbrev Out := Host.Outcome State Fault Refusal

/-! ### Memory -/

/-- What an unlisted cell holds: 0, the padding and construct_empty fill value (70_reset_and_hazards.md R342, R344). -/
def unlistedWord : Int := 0

/-- The contents of one cell of a cell list. -/
def lookupCell (cells : List (Nat × Int)) (a : Nat) : Int :=
  match cells with
  | [] => unlistedWord
  | (k, v) :: rest => if k = a then v else lookupCell rest a

/-- Writing one cell of a cell list, keeping the canonical form: a cell that becomes 0 is no longer listed. -/
def insertCell (a : Nat) (v : Int) (cells : List (Nat × Int)) : List (Nat × Int) :=
  match cells with
  | [] => if v = unlistedWord then [] else [(a, v)]
  | (k, w) :: rest =>
    if a < k then if v = unlistedWord then (k, w) :: rest else (a, v) :: (k, w) :: rest
    else if a = k then if v = unlistedWord then rest else (a, v) :: rest
    else (k, w) :: insertCell a v rest

/-- The canonical form of a cell list whose indices lie in `lo .. len - 1`. -/
def cellsWf (lo len : Nat) (cells : List (Nat × Int)) : Bool :=
  match cells with
  | [] => true
  | (k, v) :: rest => decide (lo ≤ k) && decide (k < len) && decide (v ≠ unlistedWord) && cellsWf (k + 1) len rest

/-- The canonical form of a Memory: indices strictly rising, every one below `len`, no cell listed that holds 0. -/
def Memory.wf (m : Memory) : Bool := cellsWf 0 m.len m.cells

/-- Every cell of the Memory holds a Word of the given width (R22). -/
def Memory.holdsWords (bits : Nat) (m : Memory) : Bool := m.cells.all fun c => representable bits c.2

/-- `M[a]`, for an index already checked. -/
def Memory.get (m : Memory) (a : Nat) : Int := lookupCell m.cells a

/-- `M[a] <- v`, for an index already checked. -/
def Memory.set (m : Memory) (a : Nat) (v : Int) : Memory := { m with cells := insertCell a v m.cells }

/-- The bounds check of R51 and R52. -/
def Memory.inBounds (m : Memory) (a : Int) : Bool := decide (0 ≤ a) && decide (a < (m.len : Int))

/-- Continue with the value of a computation that did not raise (00_scope.md R13: nothing after a raise is executed). -/
def andThen {α β : Type} (x : Except Raise α) (f : α → Except Raise β) : Except Raise β :=
  match x with
  | .error e => .error e
  | .ok v => f v

/-- `raise OutOfBounds(pc, a)` unless `a` is a valid index (R53). -/
def checkAddress (a : Int) (s : State) : Except Raise Int :=
  if s.mem.inBounds a then .ok a else .error ⟨.outOfBounds, some a⟩

/-- `MemRead(a, 1)` (R51). -/
def memRead (a : Int) (s : State) : Except Raise Int := andThen (checkAddress a s) fun a => .ok (s.mem.get a.toNat)

/-- `M[a] <- v` at a checked address: the Memory effect of a commit (40_execution_cycle.md R125). -/
def storeWord (a : Int) (v : Int) (s : State) : State := { s with mem := s.mem.set a.toNat v }

/-- `MemWrite(a, 1, v)` (R52). -/
def memWrite (a : Int) (v : Int) (s : State) : Except Raise State :=
  andThen (checkAddress a s) fun a => .ok (storeWord a v s)

/-! ### Fetch -/

/-- At most `n` Words from index `a` on, ending at the end of Memory. -/
def Memory.wordsFrom (m : Memory) (a n : Nat) : List Int :=
  match n with
  | 0 => []
  | n + 1 => if a < m.len then m.get a :: m.wordsFrom (a + 1) n else []

/-- The instruction word at `pc` and the up to three raw operands behind it (40_execution_cycle.md R111, R115). All are
read before the step writes anything, and from Memory itself, so a write is seen by the next fetch (20_memory.md R64). -/
def fetchWords (s : State) : List Int := s.mem.wordsFrom s.pc 4

/-- The error a decoding failure raises (40_execution_cycle.md R122 rows 1 to 5). -/
def decodeRaise (e : DecodeError) (s : State) : Raise :=
  match e with
  | .noInstructionWord => ⟨.outOfBounds, some (s.pc : Int)⟩
  | .unknownOpcode => ⟨.unknownOpcode, none⟩
  | .unsupportedParameterMode => ⟨.unsupportedParameterMode, none⟩
  | .missingOperand => ⟨.missingOperand, some (s.mem.len : Int)⟩

/-! ### Error entry and the controller's returns -/

/-- The code of an error kind (60_exceptions.md R300). -/
def ErrorKind.code (k : ErrorKind) : Nat :=
  match k with
  | .parseError => 1
  | .outOfBounds => 2
  | .missingOperand => 3
  | .unsupportedParameterMode => 4
  | .immediateWriteTarget => 5
  | .emptyInput => 6
  | .unknownOpcode => 7
  | .emptyProgram => 8
  | .overflow => 9

/-- The operation in progress returns a result and the controller is idle (47_controller.md R267). -/
def deliver (r : HostResult) (s : State) : State := { s with ctl := .idle, hostResults := s.hostResults ++ [r] }

/-- Error entry (60_exceptions.md R304): `ctl <- IDLE`, the error record with the current pc goes to the host, and
nothing else changes (40_execution_cycle.md R124; the queue and last output are not returned, 47_controller.md R268). -/
def raise (e : Raise) (s : State) : State := deliver (.error ⟨e.kind, some s.pc, e.addr⟩) s

/-- The way back into execution: the start of an entry point (47_controller.md R262, R263), whose `EmptyProgram` check
comes before any step (R266). There is no return-from-trap; a retry after an error is this same operation, and it
executes the failed instruction again from the unchanged pc (60_exceptions.md R306). -/
def enter (entry : Entry) (inputs : List Int) (last : Option Int) (s : State) : State :=
  if s.mem.len = 0 then raise ⟨.emptyProgram, none⟩ s
  else { s with inq := inputs, last := last, ctl := .exec, entry := entry }

/-- The end of an Output's step, after its commit (47_controller.md R267): the entry point returns `Running`. Under
`run` that value is resumed at once (R265; DEDUCED, log 11, safe), which leaves the queue, the last output and EXEC as
they are. -/
def suspend (a : Int) (s : State) : State :=
  match s.entry with
  | .run => s
  | .runSuspended => deliver (.suspension (.running s.inq a)) s

/-- The end of a Halt's step (47_controller.md R267): `Halted` with the last output, of which `run` returns the output
alone (R265). -/
def haltReturn (s : State) : State :=
  match s.entry with
  | .run => deliver (.lastOutput s.last) s
  | .runSuspended => deliver (.suspension (.halted s.last)) s

/-- The end of any other instruction's step: its commit, or the error entry (40_execution_cycle.md R124, R125). -/
def finish (s : State) (x : Except Raise State) : Out :=
  match x with
  | .error e => .next (raise e s)
  | .ok t => .next t

/-- The IP advance (40_execution_cycle.md R126). -/
def advance (n : Nat) (s : State) : State := { s with pc := s.pc + n }

end Sys2Proof.Machine
end

