-- ==== Sys2Proof/Machine/Source.lean ====
section
/-! DEFINITION. Program text and the Memory it builds (70_reset_and_hazards.md R340 to R342). -/

namespace Sys2Proof.Machine

/-- R341's whitespace: space, tab, carriage return and line feed. -/
def isSpace (c : Char) : Bool := c == ' ' || c == '\t' || c == '\r' || c == '\n'

/-- The text without leading and trailing whitespace (R340). -/
def trimText (text : List Char) : List Char := ((text.dropWhile isSpace).reverse.dropWhile isSpace).reverse

/-- The text split at every comma: `k` commas give `k + 1` tokens (R340). -/
def splitCommas (text : List Char) : List (List Char) :=
  match text with
  | [] => [[]]
  | c :: rest =>
    if c = ',' then [] :: splitCommas rest
    else
      match splitCommas rest with
      | [] => [[c]]
      | t :: ts => (c :: t) :: ts

/-- The value of a decimal digit character. -/
def digitValue (c : Char) : Option Nat :=
  if 48 ≤ c.toNat ∧ c.toNat ≤ 57 then some (c.toNat - 48) else none

/-- The value of a run of digits read after `acc`; none where a character is no digit. -/
def digitsFrom (acc : Nat) (ds : List Char) : Option Nat :=
  match ds with
  | [] => some acc
  | c :: rest =>
    match digitValue c with
    | none => none
    | some d => digitsFrom (10 * acc + d) rest

/-- One or more decimal digits and nothing else (R341). -/
def digitsValue (ds : List Char) : Option Nat :=
  match ds with
  | [] => none
  | c :: rest => digitsFrom 0 (c :: rest)

/-- An optional sign followed by digits (R341), before the range check. -/
def tokenInteger (t : List Char) : Option Int :=
  match t with
  | [] => none
  | c :: ds =>
    if c = '+' then (digitsValue ds).map Int.ofNat
    else if c = '-' then (digitsValue ds).map fun (n : Nat) => -(Int.ofNat n)
    else (digitsValue (c :: ds)).map Int.ofNat

/-- A valid token's value: an integer literal in the Word range (R341). -/
def tokenValue (bits : Nat) (t : List Char) : Option Int :=
  match tokenInteger t with
  | none => none
  | some v => if representable bits v then some v else none

/-- The values of the tokens, or the index of the first invalid one (R340). -/
def parseTokens (bits i : Nat) (tokens : List (List Char)) : Except Nat (List Int) :=
  match tokens with
  | [] => .ok []
  | t :: ts =>
    match tokenValue bits t with
    | none => .error i
    | some v =>
      match parseTokens bits (i + 1) ts with
      | .error j => .error j
      | .ok vs => .ok (v :: vs)

/-- The Words of a program text, or the index of the offending token (R340, R341). -/
def parseSource (bits : Nat) (text : List Char) : Except Nat (List Int) :=
  parseTokens bits 0 (splitCommas (trimText text))

/-- The cells of a list of Words placed from index `i` on. -/
def cellsFrom (i : Nat) (ws : List Int) : List (Nat × Int) :=
  match ws with
  | [] => []
  | v :: rest => if v = unlistedWord then cellsFrom (i + 1) rest else (i, v) :: cellsFrom (i + 1) rest

/-- The number of cells `construct` makes for `n` tokens (R340, R342). -/
def paddedLength (pad : Option Nat) (n : Nat) : Nat :=
  match pad with
  | none => n
  | some c => max n c

/-- The Memory of a constructed program: token `i` in cell `i`, then padding cells of 0 (R340, R342). -/
def programMemory (pad : Option Nat) (ws : List Int) : Memory := ⟨paddedLength pad ws.length, cellsFrom 0 ws⟩

/-- The Memory of `construct_empty(capacity)`: all cells 0 (R344). -/
def emptyMemory (capacity : Nat) : Memory := ⟨capacity, []⟩

end Sys2Proof.Machine
end

