-- ==== Sys2Proof/Machine/Controller.lean ====
section
/-! DEFINITION. The host's operations on an idle instance (47_controller.md R260 to R272, 70_reset_and_hazards.md R340,
R344). -/

namespace Sys2Proof.Machine

/-- The Memory a lifecycle operation builds is at most MAX_LEN cells long (70_reset_and_hazards.md R343). -/
def ifFits (m : Memory) (s : State) (t : State) : Out :=
  if m.len ≤ s.config.maxLen then .next t else .refused .exceedsMaxLen

/-- `construct(source_text)` (70_reset_and_hazards.md R340): the host has a new device, or, on a ParseError, still the
one it had (R343; DEDUCED, log 12, safe). -/
def hostConstruct (text : List Char) (s : State) : Out :=
  match parseSource s.config.wordBits text with
  | .error i => .next (deliver (.error ⟨.parseError, none, some (i : Int)⟩) s)
  | .ok ws =>
    let m := programMemory s.config.padCapacity ws
    ifFits m s (deliver .created (State.fresh s.config m s.hostOps s.hostResults))

/-- `construct_empty(capacity)` (70_reset_and_hazards.md R344). -/
def hostConstructEmpty (capacity : Nat) (s : State) : Out :=
  let m := emptyMemory capacity
  ifFits m s (deliver .created (State.fresh s.config m s.hostOps s.hostResults))

/-- `mimic(other)` (47_controller.md R271): a full copy of the other device's Memory, pc and rb 0. -/
def hostMimic (other : Memory) (s : State) : Out :=
  ifFits other s (deliver .nothing { s with mem := other, pc := 0, rb := 0 })

/-- `read(address)` (47_controller.md R269). -/
def hostRead (a : Int) (s : State) : Out :=
  finish s (andThen (memRead a s) fun v => .ok (deliver (.word v) s))

/-- `write(address, value)` (47_controller.md R270). -/
def hostWrite (a v : Int) (s : State) : Out :=
  finish s (andThen (memWrite a v s) fun t => .ok (deliver .nothing t))

/-- `run(inputs)` (47_controller.md R265): starts as `run_suspended` does and is resumed until it halts. -/
def hostRun (inputs : List Int) (s : State) : Out := .next (enter .run inputs none s)

/-- `run_suspended(inputs)` (47_controller.md R262). -/
def hostRunSuspended (inputs : List Int) (s : State) : Out := .next (enter .runSuspended inputs none s)

/-- `resume(suspension)` (47_controller.md R263; on a Halted value a no-op that returns it, R264). -/
def hostResume (x : Suspension) (s : State) : Out :=
  match x with
  | .running inputs output => .next (enter .runSuspended inputs (some output) s)
  | .halted output => .next (deliver (.suspension (.halted output)) s)

/-- Every number of the list is a Word. -/
def allWords (bits : Nat) (vs : List Int) : Bool := vs.all fun v => representable bits v

/-- The arguments are of the types R260 gives them: Words, and a Memory of this device's kind. -/
def HostOp.wellTyped (bits : Nat) (op : HostOp) : Bool :=
  match op with
  | .construct _ => true
  | .constructEmpty _ => true
  | .mimic other => other.wf && other.holdsWords bits
  | .read a => representable bits a
  | .write a v => representable bits a && representable bits v
  | .run inputs => allWords bits inputs
  | .runSuspended inputs => allWords bits inputs
  | .resume (.running inputs output) => allWords bits inputs && representable bits output
  | .resume (.halted output) => allWords bits output.toList

/-- One host operation (R260). -/
def hostPerform (op : HostOp) (s : State) : Out :=
  match op with
  | .construct text => hostConstruct text s
  | .constructEmpty capacity => hostConstructEmpty capacity s
  | .mimic other => hostMimic other s
  | .read a => hostRead a s
  | .write a v => hostWrite a v s
  | .run inputs => hostRun inputs s
  | .runSuspended inputs => hostRunSuspended inputs s
  | .resume x => hostResume x s

/-- The host calls an operation of an idle instance: it is performed at once and runs to completion or starts an
execution (R272). -/
def hostCall (op : HostOp) (s : State) : Out :=
  if op.wellTyped s.config.wordBits then hostPerform op s else .refused .illTypedHostOperation

/-- A step of an idle instance: the host's next operation runs to completion or starts an execution (R272); without one
the instance stays as it is, with no time limit (60_exceptions.md R313). -/
def hostStep (s : State) : Out :=
  match s.hostOps with
  | [] => .next s
  | op :: rest => hostCall op { s with hostOps := rest }

/-- The Words of `ws` stored from index `a` on. -/
def Memory.setFrom (m : Memory) (a : Nat) (ws : List Int) : Memory :=
  match ws with
  | [] => m
  | w :: rest => (m.set a w).setFrom (a + 1) rest

/-- The Memory with the Words of `ws` at index `a` on, lengthened where they would not fit. -/
def Memory.loadAt (m : Memory) (a : Nat) (ws : List Int) : Memory :=
  { m with len := max m.len (a + ws.length) }.setFrom a ws

end Sys2Proof.Machine
end

