-- ==== Sys2Proof/Machine/Flags.lean ====
section
/-! DEFINITION. CORE has no flag register (10_state.md R29). In place of flags stand a comparison's result, a Word
(44_compare.md R202), and the overflow check, an error (41_arith.md R142). -/

namespace Sys2Proof.Machine

/-- The Word a comparison writes: 1 or 0 (44_compare.md R200, R201). -/
def truthWord (b : Bool) : Int := if b then 1 else 0

/-- The result of LessThan, a signed comparison (44_compare.md R200). -/
def lessThanWord (x y : Int) : Int := truthWord (decide (x < y))

/-- The result of Equals (44_compare.md R201). -/
def equalsWord (x y : Int) : Int := truthWord (decide (x = y))

/-- `if not representable(v): raise Overflow(pc, -)` (41_arith.md R142, 45_relbase.md R220). -/
def checkWord (v : Int) (s : State) : Except Raise Int :=
  if representable s.config.wordBits v then .ok v else .error ⟨.overflow, none⟩

end Sys2Proof.Machine
end

