-- ==== Sys2Proof/Machine/Operands.lean ====
section
/-! DEFINITION. The Operand Resolver (40_execution_cycle.md R114, R116 to R121). -/

namespace Sys2Proof.Machine

/-- The effective address of a slot: the raw operand in Position mode, the exact sum with the Relative Base in Relative
mode (R116, R118, R119). Immediate mode has none; its raw operand stands there and no rule uses it. -/
def effectiveAddress (o : Operand) (s : State) : Int :=
  match o.mode with
  | .position => o.raw
  | .immediate => o.raw
  | .relative => s.rb + o.raw

/-- `ReadOperand(k)` (R116, R117, R118). -/
def readOperand (o : Operand) (s : State) : Except Raise Int :=
  match o.mode with
  | .position => memRead (effectiveAddress o s) s
  | .immediate => .ok o.raw
  | .relative => memRead (effectiveAddress o s) s

/-- The write-target mode check of slot `k` (R114; its place in the order of R122 is DEDUCED, log 14, safe). -/
def checkWriteMode (k : Nat) (o : Operand) (s : State) : Except Raise Unit :=
  match o.mode with
  | .position => .ok ()
  | .immediate => .error ⟨.immediateWriteTarget, some ((s.pc : Int) + (k : Int))⟩
  | .relative => .ok ()

/-- `WriteAddress(k)` (R119): formed as for a read, checked, not read. -/
def writeAddress (o : Operand) (s : State) : Except Raise Int := checkAddress (effectiveAddress o s) s

/-- The common shape of the F3 instructions: the write-target check, then slots 1, 2 and 3 in the order of R121, then
the instruction's own result, then the commit of R125 with the +4 advance. -/
def storeBinary (result : Int → Int → Except Raise Int) (a b dst : Operand) (s : State) : Except Raise State :=
  andThen (checkWriteMode 3 dst s) fun _ =>
  andThen (readOperand a s) fun x =>
  andThen (readOperand b s) fun y =>
  andThen (writeAddress dst s) fun ea =>
  andThen (result x y) fun v => .ok (advance 4 (storeWord ea v s))

/-- The common shape of the jumps (43_jump.md R180, R181): both operands are resolved, whether or not the jump is taken
(R121); the target's bounds are checked only when it is (R182). -/
def jumpWhen (taken : Int → Bool) (cond target : Operand) (s : State) : Except Raise State :=
  andThen (readOperand cond s) fun c =>
  andThen (readOperand target s) fun t =>
  if taken c then andThen (checkAddress t s) fun t => .ok { s with pc := t.toNat } else .ok (advance 3 s)

end Sys2Proof.Machine
end

