-- ==== Sys2Proof/Machine/Arith.lean ====
section
/-! DEFINITION. Add and Multiply (41_arith.md). -/

namespace Sys2Proof.Machine

/-- Add (R140): the exact sum, or Overflow (R142). -/
def execAdd (a b dst : Operand) (s : State) : Out := finish s (storeBinary (fun x y => checkWord (x + y) s) a b dst s)

/-- Multiply (R141): the exact product, or Overflow (R142). -/
def execMultiply (a b dst : Operand) (s : State) : Out :=
  finish s (storeBinary (fun x y => checkWord (x * y) s) a b dst s)

end Sys2Proof.Machine
end

