-- ==== Sys2Proof/Machine/Compare.lean ====
section
/-! DEFINITION. LessThan and Equals (44_compare.md). -/

namespace Sys2Proof.Machine

/-- LessThan (R200). -/
def execLessThan (a b dst : Operand) (s : State) : Out :=
  finish s (storeBinary (fun x y => .ok (lessThanWord x y)) a b dst s)

/-- Equals (R201). -/
def execEquals (a b dst : Operand) (s : State) : Out :=
  finish s (storeBinary (fun x y => .ok (equalsWord x y)) a b dst s)

end Sys2Proof.Machine
end

