-- ==== Sys2Proof/Machine/Halt.lean ====
section
/-! DEFINITION. Halt (46_halt.md). -/

namespace Sys2Proof.Machine

/-- Halt (R240): the entry point returns; pc, rb, Memory and the queue are unchanged. -/
def execHalt (s : State) : Out := .next (haltReturn s)

end Sys2Proof.Machine
end

