-- ==== Sys2Proof/Machine/InOut.lean ====
section
/-! DEFINITION. Input and Output (42_io.md). -/

namespace Sys2Proof.Machine

/-- Input (R160): the destination address is checked before the queue, and the queue is popped only if both hold. -/
def execInput (dst : Operand) (s : State) : Out :=
  finish s <|
    andThen (checkWriteMode 1 dst s) fun _ =>
    andThen (writeAddress dst s) fun ea =>
    match s.inq with
    | [] => .error ⟨.emptyInput, none⟩
    | v :: rest => .ok (advance 2 (storeWord ea v { s with inq := rest }))

/-- Output (R161): the commit, then the suspension. -/
def execOutput (a : Operand) (s : State) : Out :=
  finish s <| andThen (readOperand a s) fun v => .ok (suspend v (advance 2 { s with last := some v }))

end Sys2Proof.Machine
end

