-- ==== Sys2Proof/Machine/Jump.lean ====
section
/-! DEFINITION. JumpIfTrue and JumpIfFalse (43_jump.md). -/

namespace Sys2Proof.Machine

/-- JumpIfTrue (R180): any nonzero condition, negative included, takes the jump. -/
def execJumpIfTrue (cond target : Operand) (s : State) : Out :=
  finish s (jumpWhen (fun c => decide (c ≠ 0)) cond target s)

/-- JumpIfFalse (R181): only a zero condition takes the jump. -/
def execJumpIfFalse (cond target : Operand) (s : State) : Out :=
  finish s (jumpWhen (fun c => decide (c = 0)) cond target s)

end Sys2Proof.Machine
end

