-- ==== Sys2Proof/Machine/RelBase.lean ====
section
/-! DEFINITION. AdjustRelativeBase (45_relbase.md). -/

namespace Sys2Proof.Machine

/-- AdjustRelativeBase (R220): its own operand is resolved with the old `rb` (40_execution_cycle.md R120). -/
def execAdjustRelativeBase (a : Operand) (s : State) : Out :=
  finish s <|
    andThen (readOperand a s) fun v =>
    andThen (checkWord (s.rb + v) s) fun r => .ok (advance 2 { s with rb := r })

end Sys2Proof.Machine
end

