-- ==== Sys2Proof/Machine/Step.lean ====
section
/-! DEFINITION. One step of the machine: an instruction while EXEC (40_execution_cycle.md R110, R128), a host operation
while IDLE (47_controller.md R272). -/

namespace Sys2Proof.Machine

/-- One instruction (40_execution_cycle.md R128): fetch, decode, execute; a fetch or decode error is taken (R124). -/
def instrStep (s : State) : Host.Outcome State Fault Refusal :=
  match decode (fetchWords s) with
  | .error e => .next (raise (decodeRaise e s) s)
  | .ok (i, _) => exec i s

/-- One step (10_state.md R32). -/
def step (s : State) : Host.Outcome State Fault Refusal :=
  match s.ctl with
  | .exec => instrStep s
  | .idle => hostStep s

/-- The state with the opcode-table word's four Words at `pc`, the Memory long enough to hold them, and an execution in
progress: it stands for the host's construct and start of an entry point (log 4). -/
def State.withFetchWord (s : State) (nbits w : Nat) : State :=
  { s with mem := s.mem.loadAt s.pc (tableWords nbits w), ctl := .exec }

end Sys2Proof.Machine
end

