-- ==== Sys2Proof/Machine/System.lean ====
section
/-! DEFINITION. Several CORE devices side by side (60_exceptions.md R311): each has its own State (10_state.md R36), and
only the host's calls move values from one to another (20_memory.md R61). -/

namespace Sys2Proof.Machine

/-- The devices of a system; a device's position is the host's handle on it, invisible to programs (R311). -/
abbrev System := List State

/-- The system with device `k` as an outcome leaves it. -/
def updateDevice (k : Nat) (o : Out) (sys : System) : Host.Outcome System Fault Refusal :=
  match o with
  | .next t => .next (sys.set k t)
  | .fault e => .fault e
  | .refused e => .refused e

/-- Some idle device of the system has this Memory now: a `mimic` that carries it copies an instance as it stands
(47_controller.md R271, D14) and none that is executing (R272). -/
def System.hasIdle (sys : System) (m : Memory) : Bool := sys.any fun s => decide (s.ctl = .idle) && decide (s.mem = m)

/-- The system has the instance an operation copies: a `mimic` is admitted only with the Memory of an idle device, on
whichever way it is called (log 15); no other operation copies an instance. -/
def System.admits (sys : System) (op : HostOp) : Bool :=
  match op with
  | .construct _ => true
  | .constructEmpty _ => true
  | .mimic m => sys.hasIdle m
  | .read _ => true
  | .write _ _ => true
  | .run _ => true
  | .runSuspended _ => true
  | .resume _ => true

/-- The host operation a device's next step performs, if it performs one. -/
def State.nextOp (s : State) : Option HostOp :=
  match s.ctl with
  | .exec => none
  | .idle => s.hostOps.head?

/-- One step of device `k`; the order in which devices step is the orchestrator's (R311). An operation from the device's
list is held against the system as a call is (log 15). -/
def systemStep (k : Nat) (sys : System) : Host.Outcome System Fault Refusal :=
  match sys[k]? with
  | none => .next sys
  | some s => if s.nextOp.all sys.admits then updateDevice k (step s) sys else .refused .noSuchInstance

/-- The host calls an operation of device `k` now. A call on an executing device is refused, never kept for later
(47_controller.md R272, D18; 93_implementation_defined.md I16), and so is a `mimic` of a Memory that no idle device has
(log 15). -/
def systemCall (k : Nat) (op : HostOp) (sys : System) : Host.Outcome System Fault Refusal :=
  match sys[k]? with
  | none => .refused .noSuchInstance
  | some s =>
    match s.ctl with
    | .exec => .refused .instanceExecuting
    | .idle => if sys.admits op then updateDevice k (hostCall op s) sys else .refused .noSuchInstance

/-- The host calls `mimic(j)` of device `k` now: device `j`'s Memory is copied as it stands (47_controller.md R271, D14).
Neither device may be executing (R272; for `j` DEDUCED, log 15). R260 calls the argument "another instance" and gives a
`mimic` of the device itself (`j = k`) no meaning; DESIGN CHOICE (log 16, unsafe): R271's assignments are performed, so
the Memory stays and pc and rb are 0. -/
def systemMimic (k j : Nat) (sys : System) : Host.Outcome System Fault Refusal :=
  match sys[j]? with
  | none => .refused .noSuchInstance
  | some other =>
    match other.ctl with
    | .exec => .refused .instanceExecuting
    | .idle => systemCall k (.mimic other.mem) sys

end Sys2Proof.Machine
end

