-- ==== Sys2Proof/Safety.lean ====
section
/-! DEFINITION. The terms claims are stated in: the invariant of a CORE, its runs, the table of errors of a step as the
spec lists it, and the two ways to run a program. -/

namespace Sys2Proof.Safety

open Sys2Proof.Machine

/-- Every value a result hands to the host is a Word (47_controller.md R260, R261). -/
def resultWords (bits : Nat) (r : HostResult) : Bool :=
  match r with
  | .nothing => true
  | .created => true
  | .word v => representable bits v
  | .suspension (.running inputs output) => allWords bits inputs && representable bits output
  | .suspension (.halted output) => allWords bits output.toList
  | .lastOutput v => allWords bits v.toList
  | .error _ => true

/-- The invariant of one CORE: its parameters are legal (00_scope.md R7), the Memory is in canonical form, holds Words
and is no longer than MAX_LEN (10_state.md R22, R24), `0 ≤ pc ≤ len` (R25), and rb, the queue, the last output and the
results are Words (R28, R30, R31). -/
structure Inv (s : State) : Prop where
  configValid : s.config.valid
  memCanonical : s.mem.wf = true
  memWords : s.mem.holdsWords s.config.wordBits = true
  lenFits : s.mem.len ≤ s.config.maxLen
  pcInRange : s.pc ≤ s.mem.len
  rbWord : representable s.config.wordBits s.rb
  inqWords : allWords s.config.wordBits s.inq = true
  lastWord : allWords s.config.wordBits s.last.toList = true
  resultsWords : s.hostResults.all (resultWords s.config.wordBits) = true

/-- `k` steps of the machine. -/
def runSteps (k : Nat) (s : State) : Out :=
  match k with
  | 0 => .next s
  | k + 1 =>
    match step s with
    | .next t => runSteps k t
    | .fault e => .fault e
    | .refused e => .refused e

/-- An entry point that never returns (47_controller.md R273): execution goes on after any number of steps. -/
def Hangs (s : State) : Prop := ∀ k, ∃ t, runSteps k s = .next t ∧ t.ctl = .exec

/-- The operation in progress has just returned an error to the host. -/
abbrev ReturnsError (s t : State) : Prop := ∃ e, t.hostResults = s.hostResults ++ [.error e]

/-- Some device of the system is idle and has this Memory. -/
abbrev IdleDeviceHas (sys : System) (m : Memory) : Prop :=
  ∃ (j : Nat) (other : State), sys[j]? = some other ∧ other.ctl = .idle ∧ other.mem = m

/-- One step, after which a host that collects outputs resumes a `Running` value just returned, unchanged
(47_controller.md R263, R275). -/
def resumedStep (s : State) : Out :=
  match step s with
  | .fault e => .fault e
  | .refused e => .refused e
  | .next t =>
    match s.ctl, t.ctl, t.hostResults.getLast? with
    | .exec, .idle, some (.suspension (.running q a)) => hostResume (.running q a) t
    | _, _, _ => .next t

/-- `k` steps under such a host. -/
def resumedSteps (k : Nat) (s : State) : Out :=
  match k with
  | 0 => .next s
  | k + 1 =>
    match resumedStep s with
    | .next t => resumedSteps k t
    | .fault e => .fault e
    | .refused e => .refused e

/-- The Word an Output at pc is about to emit, if the instruction there is one (42_io.md R161). -/
def emitted (s : State) : Option Int :=
  match s.ctl, decode (fetchWords s) with
  | .exec, .ok (.output a, _) =>
    match readOperand a s with
    | .ok v => some v
    | .error _ => none
  | _, _ => none

/-- The outputs emitted in `k` steps, in order. -/
def outputsOf (k : Nat) (s : State) : List Int :=
  match k with
  | 0 => []
  | k + 1 =>
    match step s with
    | .next t => (emitted s).toList ++ outputsOf k t
    | .fault _ => []
    | .refused _ => []

/-- The outputs of the `Running` values among the results, in order. -/
def runningOutputs (rs : List HostResult) : List Int :=
  rs.filterMap fun r =>
    match r with
    | .suspension (.running _ a) => some a
    | _ => none

/-! ### The error table of 40_execution_cycle.md R122

Written from that table and the digits of the instruction word (30_encoding.md R81, R84), without the decoder or the
operand resolver, so that the machine can be held against it. -/

/-- The instruction word (for a pc inside Memory). -/
def wordAtPc (s : State) : Int := s.mem.get s.pc

/-- The opcode value of the instruction word (R81). -/
def opAtPc (s : State) : Int := wordAtPc s % 100

/-- The arity column of R84, by opcode value. -/
def arityOf (op : Int) : Nat :=
  if op ∈ [1, 2, 7, 8] then 3 else if op ∈ [5, 6] then 2 else if op ∈ [3, 4, 9] then 1 else 0

/-- The mode digit of slot `k` (R81). -/
def modeDigit (s : State) (k : Nat) : Int := wordAtPc s / 10 ^ (k + 1) % 10

/-- The raw operand of slot `k` (R80). -/
def rawAt (s : State) (k : Nat) : Int := s.mem.get (s.pc + k)

/-- The effective address of slot `k` (R116, R118, R119). -/
def addressAt (s : State) (k : Nat) : Int := if modeDigit s k = 2 then s.rb + rawAt s k else rawAt s k

/-- The value of read slot `k` (R116 to R118). -/
def valueAt (s : State) (k : Nat) : Int :=
  if modeDigit s k = 1 then rawAt s k else s.mem.get (addressAt s k).toNat

/-- Slot `k` has an effective address and it is out of bounds. -/
abbrev slotOutOfBounds (s : State) (k : Nat) : Prop := modeDigit s k ≠ 1 ∧ ¬ s.mem.inBounds (addressAt s k)

/-- The write slot of R84, by opcode value. -/
def writeSlotOf (op : Int) : Nat := if op = 3 then 1 else 3

/-- The exact result that row 11 checks. -/
def exactResult (s : State) : Int :=
  if opAtPc s = 1 then valueAt s 1 + valueAt s 2
  else if opAtPc s = 2 then valueAt s 1 * valueAt s 2
  else s.rb + valueAt s 1

/-- The jump at pc is taken (43_jump.md R180, R181). -/
abbrev jumpTaken (s : State) : Prop := opAtPc s = 5 ∧ valueAt s 1 ≠ 0 ∨ opAtPc s = 6 ∧ valueAt s 1 = 0

/-- The twelve rows of R122 in their order: the check that applies, and the error. -/
def errorRows (s : State) : List (Bool × Raise) :=
  [(decide (s.mem.len ≤ s.pc), ⟨.outOfBounds, some (s.pc : Int)⟩),
   (decide (wordAtPc s < 0 ∨ opAtPc s ∉ [1, 2, 3, 4, 5, 6, 7, 8, 9, 99]), ⟨.unknownOpcode, none⟩),
   ([1, 2, 3].any fun k => decide (k ≤ arityOf (opAtPc s) ∧ modeDigit s k ∉ [0, 1, 2]), ⟨.unsupportedParameterMode, none⟩),
   (decide (wordAtPc s / 10 ^ (arityOf (opAtPc s) + 2) ≠ 0), ⟨.unsupportedParameterMode, none⟩),
   (decide (s.mem.len ≤ s.pc + arityOf (opAtPc s)), ⟨.missingOperand, some (s.mem.len : Int)⟩),
   (decide (opAtPc s ∈ [1, 2, 3, 7, 8] ∧ modeDigit s (writeSlotOf (opAtPc s)) = 1),
     ⟨.immediateWriteTarget, some ((s.pc : Int) + writeSlotOf (opAtPc s))⟩),
   (decide (opAtPc s ∈ [1, 2, 4, 5, 6, 7, 8, 9] ∧ slotOutOfBounds s 1), ⟨.outOfBounds, some (addressAt s 1)⟩),
   (decide (opAtPc s ∈ [1, 2, 5, 6, 7, 8] ∧ slotOutOfBounds s 2), ⟨.outOfBounds, some (addressAt s 2)⟩),
   (decide (opAtPc s ∈ [1, 2, 3, 7, 8] ∧ slotOutOfBounds s (writeSlotOf (opAtPc s))),
     ⟨.outOfBounds, some (addressAt s (writeSlotOf (opAtPc s)))⟩),
   (decide (opAtPc s = 3 ∧ s.inq = []), ⟨.emptyInput, none⟩),
   (decide (opAtPc s ∈ [1, 2, 9] ∧ ¬ representable s.config.wordBits (exactResult s)), ⟨.overflow, none⟩),
   (decide (jumpTaken s ∧ ¬ s.mem.inBounds (valueAt s 2)), ⟨.outOfBounds, some (valueAt s 2)⟩)]

/-- "The first that applies is the one reported" (R122). -/
def firstError (s : State) : Option Raise := ((errorRows s).find? fun row => row.1).map fun row => row.2

end Sys2Proof.Safety
end

