-- ==== Sys2Proof/WellFormed.lean ====
section
/-! DEFINITION. Which instructions are well formed: a write slot is not Immediate (30_encoding.md R91) and every raw
operand is a Word (R86). Decode and step do not ask for it: an Immediate write slot runs into its error (R114). -/

namespace Sys2Proof

/-- R85, R91: the write slot, if any, is in Position or Relative mode (`m3 ∈ {0, 2}`; `A ∈ {0, 2}` for Input). -/
def Instr.writeSlotLegal (i : Instr) : Bool :=
  match i with
  | .add _ _ dst => dst.mode != .immediate
  | .multiply _ _ dst => dst.mode != .immediate
  | .input dst => dst.mode != .immediate
  | .output _ => true
  | .jumpIfTrue _ _ => true
  | .jumpIfFalse _ _ => true
  | .lessThan _ _ dst => dst.mode != .immediate
  | .equals _ _ dst => dst.mode != .immediate
  | .adjustRelativeBase _ => true
  | .halt => true

/-- R86: every raw operand is a Word of the given width. -/
def Instr.rawsAreWords (bits : Nat) (i : Instr) : Bool :=
  i.operands.all fun o => representable bits o.raw

/-- A well-formed instruction for Words of the given width. -/
def Instr.wellFormed (bits : Nat) (i : Instr) : Bool := i.writeSlotLegal && i.rawsAreWords bits

end Sys2Proof
end

