-- ==== Sys2Proof/Certificates/Slice0/Obligations.lean ====
section
/-! DEFINITION. The statements about CORE. Each docstring names the rule of the spec it formalises. -/

open Sys2Proof Sys2Proof.Machine Sys2Proof.Safety

/-! ### Encoding -/

/-- Words written out digit by digit from R81, R83 and R84, one per opcode and format (95_test_vectors.md section
2.1); 199 and -101 decode to nothing by R90 and R82, the spec's decisions D5 and D4. -/
def Obligations.WrittenOutWordsDecode : Prop :=
  decode [1002, 4, 3, 4] = .ok (.multiply (.pos 4) (.imm 3) (.pos 4), []) ∧
  decode [21101, 7, 5, 0] = .ok (.add (.imm 7) (.imm 5) (.rel 0), []) ∧
  decode [203, -1, 99] = .ok (.input (.rel (-1)), [99]) ∧
  decode [104, 42] = .ok (.output (.imm 42), []) ∧
  decode [1206, 3, 9] = .ok (.jumpIfFalse (.rel 3) (.imm 9), []) ∧
  decode [1105, 1, 17] = .ok (Instr.jmp (.imm 17), []) ∧
  decode [7, 25, 26, 27] = .ok (.lessThan (.pos 25) (.pos 26) (.pos 27), []) ∧
  decode [1008, 100, 16, 101] = .ok (.equals (.pos 100) (.imm 16) (.pos 101), []) ∧
  decode [209, -3] = .ok (.adjustRelativeBase (.rel (-3)), []) ∧
  decode [99] = .ok (.halt, []) ∧
  decode [199] = .error .unsupportedParameterMode ∧
  decode [-101, 0, 0, 0] = .error .unknownOpcode

/-- R94: decoding the encoding of any instruction, whatever Words follow it, gives the instruction and those Words. -/
def Obligations.DecodeUndoesEncode : Prop :=
  ∀ (i : Instr) (rest : List Int), decode (encode i ++ rest) = .ok (i, rest)

/-- R94, R90: whatever decodes is the encoding of what it decodes to, so no digit of a legal word is dropped. -/
def Obligations.EncodeUndoesDecode : Prop :=
  ∀ (ws rest : List Int) (i : Instr), decode ws = .ok (i, rest) → ws = encode i ++ rest

/-- R94: the word `op + 100*m_1 + 1000*m_2 + 10000*m_3` decodes to its opcode and modes, it is the word every
instruction is encoded with, and no other word decodes to the same. -/
def Obligations.OneWordPerOpcodeAndModes : Prop :=
  (∀ (op : Opcode) (m1 m2 m3 : Mode), (op.arity < 1 → m1 = .position) → (op.arity < 2 → m2 = .position) →
    (op.arity < 3 → m3 = .position) →
    decodeWord ((op.number + 100 * m1.digit + 1000 * m2.digit + 10000 * m3.digit : Nat) : Int) =
      .ok ⟨op, m1, m2, m3⟩) ∧
  (∀ (w w' : Int) (h : Header), decodeWord w = .ok h → decodeWord w' = .ok h → w = w') ∧
  (∀ (i : Instr) (slot : Nat → Nat), (∀ k, slot k = ((i.operands[k]?).map fun o => o.mode.digit).getD 0) →
    encode i = ((i.opcode.number + 100 * slot 0 + 1000 * slot 1 + 10000 * slot 2 : Nat) : Int) ::
      i.operands.map Operand.raw)

/-- R88, R89: a word whose opcode is not one of the ten raises UnknownOpcode, whatever its sign; a word with one of the
ten and a mode digit of one of its slots outside {0, 1, 2} raises UnsupportedParameterMode. -/
def Obligations.IllegalOpcodesAndModesRaise : Prop :=
  ∀ s : State, s.ctl = .exec → s.pc < s.mem.len →
    (s.mem.get s.pc % 100 ∉ [1, 2, 3, 4, 5, 6, 7, 8, 9, 99] → step s = .next (raise ⟨.unknownOpcode, none⟩ s)) ∧
    (∀ op : Opcode, 0 ≤ s.mem.get s.pc → s.mem.get s.pc % 100 = (op.number : Int) →
      ∀ k : Nat, 1 ≤ k → k ≤ op.arity → s.mem.get s.pc / 10 ^ (k + 1) % 10 ∉ [0, 1, 2] →
        step s = .next (raise ⟨.unsupportedParameterMode, none⟩ s))

/-- R82, R90 (the spec's decisions D4, D5): a negative word raises UnknownOpcode; a word with one of the ten opcodes and
a nonzero digit above its mode digits raises UnsupportedParameterMode. -/
def Obligations.NegativeAndOverlongWordsRaise : Prop :=
  ∀ s : State, s.ctl = .exec → s.pc < s.mem.len →
    (s.mem.get s.pc < 0 → step s = .next (raise ⟨.unknownOpcode, none⟩ s)) ∧
    (∀ op : Opcode, 0 ≤ s.mem.get s.pc → s.mem.get s.pc % 100 = (op.number : Int) →
      s.mem.get s.pc / 10 ^ (op.arity + 2) ≠ 0 → step s = .next (raise ⟨.unsupportedParameterMode, none⟩ s))

/-! ### Fetch, dispatch and operands -/

/-- R111: the fetch raises OutOfBounds(pc, pc) at `pc ≥ len` and otherwise reads the word at pc. -/
def Obligations.FetchIsBoundsChecked : Prop :=
  ∀ s : State,
    (s.ctl = .exec → s.mem.len ≤ s.pc → step s = .next (raise ⟨.outOfBounds, some (s.pc : Int)⟩ s)) ∧
    (s.pc < s.mem.len → (fetchWords s).head? = some (s.mem.get s.pc))

/-- R113, R115: an instruction whose operands would extend past the end of Memory raises MissingOperand(pc, len); any
other runs with the raw operands of its slots. -/
def Obligations.OperandPresence : Prop :=
  ∀ (s : State) (h : Header), s.ctl = .exec → s.pc < s.mem.len → decodeWord (s.mem.get s.pc) = .ok h →
    (s.mem.len ≤ s.pc + h.op.arity → step s = .next (raise ⟨.missingOperand, some (s.mem.len : Int)⟩ s)) ∧
    (s.pc + h.op.arity < s.mem.len → ∃ i : Instr, step s = exec i s ∧ i.opcode = h.op ∧
      i.operands.map Operand.mode = [h.mode1, h.mode2, h.mode3].take h.op.arity ∧
      i.operands.map Operand.raw = (List.range h.op.arity).map fun k => s.mem.get (s.pc + 1 + k))

/-- A step of an executing device runs the instruction decoded from the Words at pc; nothing is added around it: the
instruction's own meaning moves the pc (R128). -/
def Obligations.StepRunsTheDecodedInstruction : Prop :=
  ∀ (s : State) (i : Instr) (rest : List Int), s.ctl = .exec → decode (fetchWords s) = .ok (i, rest) →
    step s = exec i s

/-- R128: where Memory holds an instruction's encoding at pc, the step is that instruction's. -/
def Obligations.StepRunsThePlacedInstruction : Prop :=
  ∀ (s : State) (i : Instr), s.ctl = .exec →
    (∀ (k : Nat) (w : Int), (encode i)[k]? = some w → s.pc + k < s.mem.len ∧ s.mem.get (s.pc + k) = w) →
    step s = exec i s

/-- R116, R117, R118: the value of a read slot in each mode. -/
def Obligations.ReadOperandFollowsItsMode : Prop :=
  ∀ (raw : Int) (s : State),
    (s.mem.inBounds raw → readOperand (.pos raw) s = .ok (s.mem.get raw.toNat)) ∧
    (¬ s.mem.inBounds raw → readOperand (.pos raw) s = .error ⟨.outOfBounds, some raw⟩) ∧
    readOperand (.imm raw) s = .ok raw ∧
    (s.mem.inBounds (s.rb + raw) → readOperand (.rel raw) s = .ok (s.mem.get (s.rb + raw).toNat)) ∧
    (¬ s.mem.inBounds (s.rb + raw) → readOperand (.rel raw) s = .error ⟨.outOfBounds, some (s.rb + raw)⟩)

/-- R119: the address of a write slot in each mode, checked but not read. -/
def Obligations.WriteAddressFollowsItsMode : Prop :=
  ∀ (raw : Int) (s : State),
    (s.mem.inBounds raw → writeAddress (.pos raw) s = .ok raw) ∧
    (¬ s.mem.inBounds raw → writeAddress (.pos raw) s = .error ⟨.outOfBounds, some raw⟩) ∧
    (s.mem.inBounds (s.rb + raw) → writeAddress (.rel raw) s = .ok (s.rb + raw)) ∧
    (¬ s.mem.inBounds (s.rb + raw) → writeAddress (.rel raw) s = .error ⟨.outOfBounds, some (s.rb + raw)⟩)

/-- R51, R52, R60: a write in bounds is read back, changes no other cell and keeps the canonical form; a write out of
bounds raises OutOfBounds with its address. -/
def Obligations.MemWriteChangesOneCell : Prop :=
  ∀ (a : Int) (v : Int) (s : State), s.mem.wf = true →
    (s.mem.inBounds a → ∃ t, memWrite a v s = .ok t ∧ memRead a t = .ok v ∧
      (∀ b : Int, b ≠ a → memRead b t = memRead b s) ∧ t = { s with mem := t.mem } ∧
      t.mem.len = s.mem.len ∧ t.mem.wf = true) ∧
    (¬ s.mem.inBounds a → memWrite a v s = .error ⟨.outOfBounds, some a⟩)

/-! ### Each instruction -/

/-- R140, R141, R142: Add and Multiply store the exact sum or product and advance by 4; a result outside the Word range
raises Overflow(pc, -). -/
def Obligations.ArithmeticIsExactOrOverflows : Prop :=
  ∀ (a b dst : Operand) (s : State) (x y : Int), readOperand a s = .ok x → readOperand b s = .ok y →
    dst.mode ≠ .immediate → s.mem.inBounds (effectiveAddress dst s) →
    (representable s.config.wordBits (x + y) → exec (.add a b dst) s =
      .next { s with mem := s.mem.set (effectiveAddress dst s).toNat (x + y), pc := s.pc + 4 }) ∧
    (¬ representable s.config.wordBits (x + y) → exec (.add a b dst) s = .next (raise ⟨.overflow, none⟩ s)) ∧
    (representable s.config.wordBits (x * y) → exec (.multiply a b dst) s =
      .next { s with mem := s.mem.set (effectiveAddress dst s).toNat (x * y), pc := s.pc + 4 }) ∧
    (¬ representable s.config.wordBits (x * y) → exec (.multiply a b dst) s = .next (raise ⟨.overflow, none⟩ s))

/-- R200, R201: LessThan and Equals store 1 or 0 by the signed comparison, advance by 4 and never overflow. -/
def Obligations.ComparisonsStoreOneOrZero : Prop :=
  ∀ (a b dst : Operand) (s : State) (x y : Int), readOperand a s = .ok x → readOperand b s = .ok y →
    dst.mode ≠ .immediate → s.mem.inBounds (effectiveAddress dst s) →
    exec (.lessThan a b dst) s = .next { s with
      mem := s.mem.set (effectiveAddress dst s).toNat (if x < y then 1 else 0), pc := s.pc + 4 } ∧
    exec (.equals a b dst) s = .next { s with
      mem := s.mem.set (effectiveAddress dst s).toNat (if x = y then 1 else 0), pc := s.pc + 4 }

/-- R202: whatever the operands, a comparison that completes leaves exactly 0 or 1 in its destination, by the signed
and exact comparison of the two operands. -/
def Obligations.ComparisonResultIsZeroOrOne : Prop :=
  ∀ (a b dst : Operand) (s t : State) (i : Instr), s.mem.wf = true →
    (i = .lessThan a b dst ∨ i = .equals a b dst) → exec i s = .next t → ¬ ReturnsError s t →
    (memRead (effectiveAddress dst s) t = .ok 0 ∨ memRead (effectiveAddress dst s) t = .ok 1) ∧
    ∃ x y : Int, readOperand a s = .ok x ∧ readOperand b s = .ok y ∧
      (memRead (effectiveAddress dst s) t = .ok 1 ↔ i = .lessThan a b dst ∧ x < y ∨ i = .equals a b dst ∧ x = y)

/-- R114, R121, R122 rows 6 to 9: what the four storing three-operand instructions raise, and in which order. -/
def Obligations.StoringInstructionsRaiseInOrder : Prop :=
  ∀ (a b dst : Operand) (s : State) (i : Instr),
    i ∈ [Instr.add a b dst, .multiply a b dst, .lessThan a b dst, .equals a b dst] →
    (dst.mode = .immediate → exec i s = .next (raise ⟨.immediateWriteTarget, some ((s.pc : Int) + 3)⟩ s)) ∧
    (dst.mode ≠ .immediate →
      (∀ e, readOperand a s = .error e → exec i s = .next (raise e s)) ∧
      (∀ x e, readOperand a s = .ok x → readOperand b s = .error e → exec i s = .next (raise e s)) ∧
      (∀ x y, readOperand a s = .ok x → readOperand b s = .ok y → ¬ s.mem.inBounds (effectiveAddress dst s) →
        exec i s = .next (raise ⟨.outOfBounds, some (effectiveAddress dst s)⟩ s)))

/-- R160: Input stores the front of the queue, pops it and advances by 2; the write target is checked before its
address, the address before the queue (the order is the spec's decision D6), and a failing Input keeps the queue. -/
def Obligations.InputPopsIntoMemory : Prop :=
  ∀ (dst : Operand) (s : State),
    (dst.mode = .immediate → exec (.input dst) s = .next (raise ⟨.immediateWriteTarget, some ((s.pc : Int) + 1)⟩ s)) ∧
    (dst.mode ≠ .immediate → ¬ s.mem.inBounds (effectiveAddress dst s) →
      exec (.input dst) s = .next (raise ⟨.outOfBounds, some (effectiveAddress dst s)⟩ s)) ∧
    (dst.mode ≠ .immediate → s.mem.inBounds (effectiveAddress dst s) → s.inq = [] →
      exec (.input dst) s = .next (raise ⟨.emptyInput, none⟩ s)) ∧
    (∀ v rest, dst.mode ≠ .immediate → s.mem.inBounds (effectiveAddress dst s) → s.inq = v :: rest →
      exec (.input dst) s = .next { s with
        mem := s.mem.set (effectiveAddress dst s).toNat v, inq := rest, pc := s.pc + 2 })

/-- R161, R267, R265: Output records the value as the last output, advances by 2 and suspends: the entry point returns
Running with the unconsumed inputs, or, under `run`, execution goes on, within the Output's own step
(the model's reading of R265's loop, log 11, DEDUCED). -/
def Obligations.OutputEmitsAndSuspends : Prop :=
  ∀ (a : Operand) (s : State),
    (∀ e, readOperand a s = .error e → exec (.output a) s = .next (raise e s)) ∧
    (∀ v, readOperand a s = .ok v → s.entry = .runSuspended → exec (.output a) s = .next { s with
      last := some v, pc := s.pc + 2, ctl := .idle,
      hostResults := s.hostResults ++ [.suspension (.running s.inq v)] }) ∧
    (∀ v, readOperand a s = .ok v → s.entry = .run →
      exec (.output a) s = .next { s with last := some v, pc := s.pc + 2 })

/-- R180, R182: JumpIfTrue resolves both operands in order, jumps on any nonzero condition to a target in bounds, raises
OutOfBounds(pc, target) on one that is not, and otherwise advances by 3 without checking the target. -/
def Obligations.JumpIfTrueJumpsOnNonzero : Prop :=
  ∀ (cond target : Operand) (s : State),
    (∀ e, readOperand cond s = .error e → exec (.jumpIfTrue cond target) s = .next (raise e s)) ∧
    (∀ c e, readOperand cond s = .ok c → readOperand target s = .error e →
      exec (.jumpIfTrue cond target) s = .next (raise e s)) ∧
    (∀ c d, readOperand cond s = .ok c → readOperand target s = .ok d →
      (c ≠ 0 → s.mem.inBounds d → exec (.jumpIfTrue cond target) s = .next { s with pc := d.toNat }) ∧
      (c ≠ 0 → ¬ s.mem.inBounds d →
        exec (.jumpIfTrue cond target) s = .next (raise ⟨.outOfBounds, some d⟩ s)) ∧
      (c = 0 → exec (.jumpIfTrue cond target) s = .next { s with pc := s.pc + 3 }))

/-- R181, R182: JumpIfFalse, as JumpIfTrue but taken on a zero condition only. -/
def Obligations.JumpIfFalseJumpsOnZero : Prop :=
  ∀ (cond target : Operand) (s : State),
    (∀ e, readOperand cond s = .error e → exec (.jumpIfFalse cond target) s = .next (raise e s)) ∧
    (∀ c e, readOperand cond s = .ok c → readOperand target s = .error e →
      exec (.jumpIfFalse cond target) s = .next (raise e s)) ∧
    (∀ c d, readOperand cond s = .ok c → readOperand target s = .ok d →
      (c = 0 → s.mem.inBounds d → exec (.jumpIfFalse cond target) s = .next { s with pc := d.toNat }) ∧
      (c = 0 → ¬ s.mem.inBounds d →
        exec (.jumpIfFalse cond target) s = .next (raise ⟨.outOfBounds, some d⟩ s)) ∧
      (c ≠ 0 → exec (.jumpIfFalse cond target) s = .next { s with pc := s.pc + 3 }))

/-- R220: AdjustRelativeBase adds its operand, read with the old base, to the base and advances by 2; a sum outside the
Word range raises Overflow(pc, -). -/
def Obligations.AdjustAddsToTheRelativeBase : Prop :=
  ∀ (a : Operand) (s : State),
    (∀ e, readOperand a s = .error e → exec (.adjustRelativeBase a) s = .next (raise e s)) ∧
    (∀ v, readOperand a s = .ok v → representable s.config.wordBits (s.rb + v) →
      exec (.adjustRelativeBase a) s = .next { s with rb := s.rb + v, pc := s.pc + 2 }) ∧
    (∀ v, readOperand a s = .ok v → ¬ representable s.config.wordBits (s.rb + v) →
      exec (.adjustRelativeBase a) s = .next (raise ⟨.overflow, none⟩ s))

/-- R240, R267, R265: Halt ends the entry point with the last output and changes nothing else, the pc included. -/
def Obligations.HaltReturnsTheLastOutput : Prop :=
  ∀ s : State,
    (s.entry = .runSuspended → exec .halt s = .next { s with
      ctl := .idle, hostResults := s.hostResults ++ [.suspension (.halted s.last)] }) ∧
    (s.entry = .run → exec .halt s = .next { s with
      ctl := .idle, hostResults := s.hostResults ++ [.lastOutput s.last] })

/-! ### Frames and whole-machine rules -/

/-- The frame of the storing instructions (R29, R125): every cell but the destination reads as before, the destination
too where the instruction raises; rb, the last output, the length, the parameters, the entry kind and the host's
operations are unchanged, the queue too but for Input's pop; the controller and the results change by an error entry
only. -/
def Obligations.StoringInstructionsFrame : Prop :=
  ∀ (a b dst : Operand) (s t : State) (i : Instr),
    i ∈ [Instr.add a b dst, .multiply a b dst, .lessThan a b dst, .equals a b dst, .input dst] →
    exec i s = .next t →
    (∀ c : Int, c ≠ effectiveAddress dst s → memRead c t = memRead c s) ∧ t.mem.len = s.mem.len ∧
    t.rb = s.rb ∧ t.last = s.last ∧ t.config = s.config ∧ t.entry = s.entry ∧ t.hostOps = s.hostOps ∧
    (i ≠ .input dst → t.inq = s.inq) ∧ (i = .input dst → t.inq = s.inq ∨ t.inq = s.inq.tail) ∧
    (t.ctl = s.ctl ∧ t.hostResults = s.hostResults ∨ ∃ e, t = raise e s)

/-- The frame of the instructions that store nothing (R29): all of Memory, the queue, the parameters, the entry kind
and the host's operations are unchanged; rb changes by AdjustRelativeBase only, the last output by Output only; the
controller and the results change only by an error entry, by an Output's suspension or by a Halt. -/
def Obligations.NonStoringInstructionsFrame : Prop :=
  ∀ (a b : Operand) (s t : State) (i : Instr),
    i ∈ [Instr.output a, .jumpIfTrue a b, .jumpIfFalse a b, .adjustRelativeBase a, .halt] → exec i s = .next t →
    (∀ c : Int, memRead c t = memRead c s) ∧ t.mem = s.mem ∧ t.inq = s.inq ∧ t.config = s.config ∧
    t.entry = s.entry ∧ t.hostOps = s.hostOps ∧ (i ≠ .adjustRelativeBase a → t.rb = s.rb) ∧
    (i ≠ .output a → t.last = s.last) ∧
    (i ≠ .output a → i ≠ .halt →
      t.ctl = s.ctl ∧ t.hostResults = s.hostResults ∨ ∃ e, t = raise e s)

/-- R26, R126: a step leaves pc where it was (an error or, by the spec's decision D11, a Halt), advances it past the instruction, or, for a jump,
puts it at the jump's resolved target, which is inside Memory. -/
def Obligations.PcMovesAsListed : Prop :=
  ∀ (s t : State) (i : Instr), exec i s = .next t →
    (t.pc = s.pc ∧ (i = .halt ∨ ReturnsError s t)) ∨
    (t.pc = s.pc + i.length ∧ i ≠ .halt) ∨
    ∃ cond target : Operand, ∃ d : Int, (i = .jumpIfTrue cond target ∨ i = .jumpIfFalse cond target) ∧
      readOperand target s = .ok d ∧ 0 ≤ d ∧ d < (s.mem.len : Int) ∧ (t.pc : Int) = d

/-- R221: only AdjustRelativeBase writes rb; with rb at its reset value 0 a Relative operand means what the Position
operand means. -/
def Obligations.OnlyAdjustWritesTheRelativeBase : Prop :=
  (∀ (s t : State) (i : Instr), exec i s = .next t → t.rb ≠ s.rb → ∃ a, i = .adjustRelativeBase a) ∧
  (∀ (s : State) (k : Int), s.rb = 0 → readOperand (.rel k) s = readOperand (.pos k) s ∧
    writeAddress (.rel k) s = writeAddress (.pos k) s)

/-- R30, R162: execution never adds to the queue; only a completed Input takes from it, the front, which it stores. -/
def Obligations.QueueIsConsumedFromTheFront : Prop :=
  ∀ (s t : State) (i : Instr), s.mem.wf = true → exec i s = .next t →
    t.inq = s.inq ∨
    ∃ (dst : Operand) (v : Int), i = .input dst ∧ s.inq = v :: t.inq ∧
      memRead (effectiveAddress dst s) t = .ok v

/-- R124: a step that raises an error changes no state; the controller is idle and the host has the error record, whose
ip is the pc of the failing instruction. -/
def Obligations.FailingStepChangesNothing : Prop :=
  ∀ s t : State, s.ctl = .exec → step s = .next t → ReturnsError s t →
    t.mem = s.mem ∧ t.mem.len = s.mem.len ∧ t.pc = s.pc ∧ t.rb = s.rb ∧ t.inq = s.inq ∧ t.last = s.last ∧
    t.config = s.config ∧ t.entry = s.entry ∧ t.hostOps = s.hostOps ∧ t.ctl = .idle ∧
    ∃ kind addr, t.hostResults = s.hostResults ++ [.error ⟨kind, some s.pc, addr⟩]

/-- R122: a step raises exactly the first error of the table that applies, and none where none applies. The table is
`errorRows`, written from the digits of the instruction word. -/
def Obligations.FirstApplicableErrorIsReported : Prop :=
  ∀ s : State, s.ctl = .exec →
    (∀ e, firstError s = some e → step s = .next (raise e s)) ∧
    (firstError s = none → ∃ t, step s = .next t ∧ ¬ ReturnsError s t)

/-- R110, R267, R276: a step of an executing device always goes on; it either stays in execution and returns nothing,
or ends the entry point with exactly one result, by an Output, a Halt or an error. -/
def Obligations.ExecutionEndsOnlyAsListed : Prop :=
  ∀ s : State, s.ctl = .exec → ∃ t, step s = .next t ∧
    (t.ctl = .exec ∧ t.hostResults = s.hostResults ∨
     t.ctl = .idle ∧ ReturnsError s t ∨
     t.ctl = .idle ∧ ∃ i rest, decode (fetchWords s) = .ok (i, rest) ∧
       ((∃ a v, i = .output a ∧ s.entry = .runSuspended ∧ t.last = some v ∧
          t.hostResults = s.hostResults ++ [.suspension (.running t.inq v)]) ∨
        (i = .halt ∧ s.entry = .runSuspended ∧
          t.hostResults = s.hostResults ++ [.suspension (.halted t.last)]) ∨
        (i = .halt ∧ s.entry = .run ∧ t.hostResults = s.hostResults ++ [.lastOutput t.last])))

/-- R64 (the spec's decision D19): the next fetch sees a write. Whichever of the four Words from the next pc on one of
the five storing instructions writes, its word or a raw operand of the next instruction, is fetched as the value
stored; so is a Word the host writes at the pc of an idle device or behind it. -/
def Obligations.WrittenWordIsFetchedNext : Prop :=
  (∀ (a b dst : Operand) (s t : State) (i : Instr) (k : Nat), s.mem.wf = true →
    i ∈ [Instr.add a b dst, .multiply a b dst, .lessThan a b dst, .equals a b dst, .input dst] → k < 4 →
    effectiveAddress dst s = (s.pc : Int) + i.length + k → exec i s = .next t → ¬ ReturnsError s t →
    ∃ v : Int, (fetchWords t)[k]? = some v ∧
      (i = .input dst ∧ s.inq.head? = some v ∨
       ∃ x y : Int, readOperand a s = .ok x ∧ readOperand b s = .ok y ∧
         (i = .add a b dst ∧ v = x + y ∨ i = .multiply a b dst ∧ v = x * y ∨
          i = .lessThan a b dst ∧ v = (if x < y then 1 else 0) ∨
          i = .equals a b dst ∧ v = (if x = y then 1 else 0)))) ∧
  (∀ (s : State) (v : Int) (k : Nat) (rest : List HostOp), s.mem.wf = true → s.ctl = .idle → k < 4 →
    s.hostOps = .write ((s.pc : Int) + k) v :: rest → representable s.config.wordBits ((s.pc : Int) + k) →
    representable s.config.wordBits v → s.pc + k < s.mem.len →
    ∃ t : State, step s = .next t ∧ t.pc = s.pc ∧ (fetchWords t)[k]? = some v)

/-- R7, R23: no step changes the parameters, and the length changes only where the host constructs or mimics. -/
def Obligations.LengthAndParametersAreFixed : Prop :=
  ∀ s t : State, step s = .next t →
    t.config = s.config ∧
    (t.mem.len = s.mem.len ∨ s.ctl = .idle ∧ ∃ op rest, s.hostOps = op :: rest ∧
      ((∃ text, op = .construct text) ∨ (∃ n, op = .constructEmpty n ∧ t.mem.len = n) ∨
       (∃ m, op = .mimic m ∧ t.mem.len = m.len)))

/-- The invariant of a CORE (R7, R22, R24, R25, R28, R30, R31) is kept by every step, from every state that has it. -/
def Obligations.StepKeepsTheInvariant : Prop := ∀ s t : State, Inv s → step s = .next t → Inv t

/-- The invariant holds at reset, for every legal choice of the parameters and every capacity within MAX_LEN (R344,
R345; with the queue and the last output of log 1, the model's choice). -/
def Obligations.ResetHasTheInvariant : Prop :=
  Inv State.reset ∧ ∀ (c : Config) (n : Nat) (ops : List HostOp), c.valid → n ≤ c.maxLen →
    Inv (State.fresh c (emptyMemory n) ops [])

/-! ### The controller and the host -/

/-- R262, R263, R265: the entry points load the queue and the last output and start execution, and reset nothing. -/
def Obligations.EntryPointsStartExecution : Prop :=
  ∀ (s : State) (inputs : List Int) (output : Int) (rest : List HostOp), s.ctl = .idle → s.mem.len ≠ 0 →
    allWords s.config.wordBits inputs = true → representable s.config.wordBits output →
    (s.hostOps = .runSuspended inputs :: rest → step s = .next { s with
      hostOps := rest, inq := inputs, last := none, ctl := .exec, entry := .runSuspended }) ∧
    (s.hostOps = .run inputs :: rest → step s = .next { s with
      hostOps := rest, inq := inputs, last := none, ctl := .exec, entry := .run }) ∧
    (s.hostOps = .resume (.running inputs output) :: rest → step s = .next { s with
      hostOps := rest, inq := inputs, last := some output, ctl := .exec, entry := .runSuspended })

/-- R266, D13: on a zero-length Memory the entry points raise EmptyProgram, with ip = pc and no address, before any
step. -/
def Obligations.EmptyProgramComesFirst : Prop :=
  ∀ (s : State) (op : HostOp) (rest : List HostOp), s.ctl = .idle → s.mem.len = 0 → s.hostOps = op :: rest →
    op.wellTyped s.config.wordBits = true →
    ((∃ inputs, op = .run inputs) ∨ (∃ inputs, op = .runSuspended inputs) ∨
      ∃ inputs output, op = .resume (.running inputs output)) →
    step s = .next { s with
      hostOps := rest, hostResults := s.hostResults ++ [.error ⟨.emptyProgram, some s.pc, none⟩] }

/-- R264: `resume` of a Halted value returns it and changes no state, whatever the Memory, pc or length. -/
def Obligations.ResumeOfHaltedIsANoOp : Prop :=
  ∀ (s : State) (output : Option Int) (rest : List HostOp), s.ctl = .idle →
    s.hostOps = .resume (.halted output) :: rest → allWords s.config.wordBits output.toList = true →
    step s = .next { s with
      hostOps := rest, hostResults := s.hostResults ++ [.suspension (.halted output)] }

/-- R269, R270: the host's read and write follow the bounds contract of Memory; an error's ip is the current pc and
changes no state, a read changes none, and a write changes its cell alone. -/
def Obligations.HostReadAndWrite : Prop :=
  ∀ (s : State) (a v : Int) (rest : List HostOp), s.ctl = .idle → representable s.config.wordBits a →
    representable s.config.wordBits v →
    (s.hostOps = .read a :: rest →
      (s.mem.inBounds a → step s = .next { s with
        hostOps := rest, hostResults := s.hostResults ++ [.word (s.mem.get a.toNat)] }) ∧
      (¬ s.mem.inBounds a → step s = .next { s with
        hostOps := rest, hostResults := s.hostResults ++ [.error ⟨.outOfBounds, some s.pc, some a⟩] })) ∧
    (s.hostOps = .write a v :: rest →
      (s.mem.inBounds a → step s = .next { s with
        mem := s.mem.set a.toNat v, hostOps := rest, hostResults := s.hostResults ++ [.nothing] }) ∧
      (¬ s.mem.inBounds a → step s = .next { s with
        hostOps := rest, hostResults := s.hostResults ++ [.error ⟨.outOfBounds, some s.pc, some a⟩] }))

/-- R271: after `mimic` device `k` has the Memory and length of device `j` as they stand when it is called (D14), and pc
and rb 0; nothing else of it and no other device has changed. For `j = k` that is the model's choice (log 16). -/
def Obligations.MimicCopiesTheOtherDevice : Prop :=
  ∀ (sys : System) (k j : Nat) (s other : State), sys[k]? = some s → sys[j]? = some other → s.ctl = .idle →
    other.ctl = .idle → other.mem.wf = true → other.mem.holdsWords s.config.wordBits = true →
    other.mem.len ≤ s.config.maxLen →
    ∃ sys', systemMimic k j sys = .next sys' ∧
      sys'[k]? = some { s with
        mem := other.mem, pc := 0, rb := 0, hostResults := s.hostResults ++ [.nothing] } ∧
      ∀ m, m ≠ k → sys'[m]? = sys[m]?

/-- R36, R61, R311: a step of one device, a host's call on it and its `mimic` change no other device of the system. -/
def Obligations.DevicesShareNoState : Prop :=
  ∀ (sys sys' : System) (k : Nat),
    (systemStep k sys = .next sys' ∨ (∃ op, systemCall k op sys = .next sys') ∨
      ∃ j, systemMimic k j sys = .next sys') →
    sys'.length = sys.length ∧ ∀ m, m ≠ k → sys'[m]? = sys[m]?

/-- R272, D18 (93_implementation_defined.md I16): no host operation overlaps an execution. An executing device's step
neither takes nor looks at the operations still to come; a call on an executing device, and a `mimic` of one (for that
one log 15, DEDUCED), is refused. A `mimic`, called or from a device's list, of a Memory that no idle device of the
system has is refused (log 15, the model's choice); every other call on an idle device is performed at once, as the step
that finds it next performs it, and every other step of a device is its own. -/
def Obligations.HostOperationsNeverOverlapExecution : Prop :=
  (∀ (s t : State) (ops : List HostOp), s.ctl = .exec → step s = .next t →
    t.hostOps = s.hostOps ∧ step { s with hostOps := ops } = .next { t with hostOps := ops }) ∧
  (∀ (sys : System) (k : Nat) (s : State), sys[k]? = some s →
    (s.ctl = .exec → (∀ op, systemCall k op sys = .refused .instanceExecuting) ∧
      ∀ j other, sys[j]? = some other → systemMimic k j sys = .refused .instanceExecuting ∧
        systemMimic j k sys = .refused .instanceExecuting) ∧
    (s.ctl = .idle → ∀ m : Memory, ¬ IdleDeviceHas sys m →
      systemCall k (.mimic m) sys = .refused .noSuchInstance ∧
      ∀ rest, s.hostOps = .mimic m :: rest → systemStep k sys = .refused .noSuchInstance) ∧
    (s.ctl = .idle → ∀ (op : HostOp) (t : State), (∀ m, op = .mimic m → IdleDeviceHas sys m) →
      step { s with hostOps := op :: s.hostOps } = .next t → systemCall k op sys = .next (sys.set k t)) ∧
    (∀ t : State,
      (s.ctl = .idle → ∀ (m : Memory) (rest : List HostOp), s.hostOps = .mimic m :: rest → IdleDeviceHas sys m) →
      step s = .next t → systemStep k sys = .next (sys.set k t)))

/-- R313: an idle device without a host operation keeps all its state, for any number of steps. -/
def Obligations.IdleDeviceKeepsItsState : Prop :=
  ∀ (s : State) (k : Nat), s.ctl = .idle → s.hostOps = [] → runSteps k s = .next s

/-- R344, R345: `construct_empty(capacity)` makes a device of that many cells, all 0, with pc and rb 0, idle; that it takes
the place of the device the host had, with the same parameters, is the model's reading (log 12, DEDUCED). -/
def Obligations.ConstructEmptyMakesZeroCells : Prop :=
  ∀ (s : State) (n : Nat) (rest : List HostOp), s.ctl = .idle → s.hostOps = .constructEmpty n :: rest →
    n ≤ s.config.maxLen →
    ∃ t, step s = .next t ∧ t.mem.len = n ∧ (∀ a : Int, 0 ≤ a → a < n → memRead a t = .ok 0) ∧
      t.pc = 0 ∧ t.rb = 0 ∧ t.ctl = .idle ∧ t.config = s.config ∧ t.hostOps = rest ∧
      t.hostResults = s.hostResults ++ [.created]

/-- R340, R342, R345: `construct` of a text whose tokens are all valid (R341) puts the value of token `i` in cell `i`, pads
with 0 to the configured capacity, and makes a device with pc and rb 0, idle; that it takes the place of the device the
host had, with the same parameters, is the model's reading (log 12, DEDUCED). -/
def Obligations.ConstructPlacesAndPads : Prop :=
  ∀ (s : State) (text : List Char) (ws : List Int) (rest : List HostOp), s.ctl = .idle →
    s.hostOps = .construct text :: rest →
    (splitCommas (trimText text)).map (tokenValue s.config.wordBits) = ws.map some →
    paddedLength s.config.padCapacity ws.length ≤ s.config.maxLen →
    ∃ t, step s = .next t ∧
      (s.config.padCapacity = none → t.mem.len = ws.length) ∧
      (∀ c, s.config.padCapacity = some c → t.mem.len = max ws.length c) ∧
      (∀ (i : Nat) (v : Int), ws[i]? = some v → memRead (i : Int) t = .ok v) ∧
      (∀ i : Nat, ws.length ≤ i → i < t.mem.len → memRead (i : Int) t = .ok 0) ∧
      t.pc = 0 ∧ t.rb = 0 ∧ t.ctl = .idle ∧ t.config = s.config ∧ t.hostOps = rest ∧
      t.hostResults = s.hostResults ++ [.created]

/-- R340, R343: `construct` of a text with an invalid token (R341, D15) creates no device and returns ParseError with no ip and the
index of the first invalid token; that the host still has the device it had is the model's reading (log 12, DEDUCED). -/
def Obligations.ParseErrorNamesTheFirstBadToken : Prop :=
  ∀ (s : State) (text : List Char) (rest : List HostOp) (i : Nat) (t : List Char), s.ctl = .idle →
    s.hostOps = .construct text :: rest → (splitCommas (trimText text))[i]? = some t →
    tokenValue s.config.wordBits t = none →
    (∀ (j : Nat) (u : List Char), j < i → (splitCommas (trimText text))[j]? = some u →
      tokenValue s.config.wordBits u ≠ none) →
    step s = .next { s with
      hostOps := rest, hostResults := s.hostResults ++ [.error ⟨.parseError, none, some (i : Int)⟩] }

/-- R343, D28: a construction of more than MAX_LEN cells is refused; so are a `construct_empty` and a `mimic` (for these
two the model's reading of R24, log 7, DEDUCED). -/
def Obligations.OversizedConstructionIsRefused : Prop :=
  ∀ (s : State) (rest : List HostOp), s.ctl = .idle →
    (∀ (text : List Char) (ws : List Int), s.hostOps = .construct text :: rest →
      (splitCommas (trimText text)).map (tokenValue s.config.wordBits) = ws.map some →
      s.config.maxLen < paddedLength s.config.padCapacity ws.length → step s = .refused .exceedsMaxLen) ∧
    (∀ n : Nat, s.hostOps = .constructEmpty n :: rest → s.config.maxLen < n → step s = .refused .exceedsMaxLen) ∧
    (∀ m : Memory, s.hostOps = .mimic m :: rest → m.wf = true → m.holdsWords s.config.wordBits = true →
      s.config.maxLen < m.len → step s = .refused .exceedsMaxLen)

/-- The types of R260's arguments (the refusal is the model's choice, log 8): a host operation of an idle device is
refused as ill-typed exactly if a number it passes as a Word is none, or the Memory a `mimic` passes is not a canonical
one of Words. -/
def Obligations.IllTypedHostOperationsAreRefused : Prop :=
  ∀ (s : State) (op : HostOp) (rest : List HostOp), s.ctl = .idle → s.hostOps = op :: rest →
    (step s = .refused .illTypedHostOperation ↔
      (∃ a, op = .read a ∧ ¬ representable s.config.wordBits a) ∨
      (∃ a v, op = .write a v ∧ ¬ (representable s.config.wordBits a ∧ representable s.config.wordBits v)) ∨
      (∃ inputs, (op = .run inputs ∨ op = .runSuspended inputs) ∧ ∃ v ∈ inputs, ¬ representable s.config.wordBits v) ∨
      (∃ inputs output, op = .resume (.running inputs output) ∧
        ∃ v ∈ output :: inputs, ¬ representable s.config.wordBits v) ∨
      (∃ output, op = .resume (.halted (some output)) ∧ ¬ representable s.config.wordBits output) ∨
      ∃ m, op = .mimic m ∧ ¬ (m.wf = true ∧ m.holdsWords s.config.wordBits = true))

/-- R341: the valid tokens and their values: an optional sign, then one or more decimal digits, in the Word range. -/
def Obligations.TokenGrammar : Prop :=
  ∀ (bits : Nat) (t : List Char) (v : Int),
    tokenValue bits t = some v ↔
      ∃ sign ds : List Char, (sign = [] ∨ sign = ['+'] ∨ sign = ['-']) ∧ t = sign ++ ds ∧ ds ≠ [] ∧
        (∀ c ∈ ds, '0' ≤ c ∧ c ≤ '9') ∧
        v = (if sign = ['-'] then -1 else 1) * ((ds.foldl (fun n c => 10 * n + (c.toNat - 48)) 0 : Nat) : Int) ∧
        representable bits v

/-- R340, R341: a text is its comma-separated tokens, the whole of it trimmed of leading and trailing whitespace. -/
def Obligations.SourceIsCommaSeparated : Prop :=
  ∀ (bits : Nat) (before after : List Char) (tokens : List (List Char)), before.all isSpace = true →
    after.all isSpace = true → tokens ≠ [] → (∀ t ∈ tokens, ∀ c ∈ t, c ≠ ',' ∧ isSpace c = false) →
    splitCommas (trimText (before ++ List.intercalate [','] tokens ++ after)) = tokens ∧
    parseSource bits (before ++ List.intercalate [','] tokens ++ after) = parseTokens bits 0 tokens

/-- R306: after an EmptyInput, a `resume` with a Running value the host supplies runs the failed Input again from the
unchanged pc, and with a non-empty queue it completes. -/
def Obligations.RetryAfterEmptyInputCompletes : Prop :=
  ∀ (s : State) (dst : Operand) (ws : List Int) (v output : Int) (vs : List Int), s.ctl = .exec →
    decode (fetchWords s) = .ok (.input dst, ws) → dst.mode ≠ .immediate →
    s.mem.inBounds (effectiveAddress dst s) → s.inq = [] →
    allWords s.config.wordBits (v :: vs) = true → representable s.config.wordBits output →
    ∃ t, step s = .next t ∧ t.hostResults = s.hostResults ++ [.error ⟨.emptyInput, some s.pc, none⟩] ∧
      runSteps 2 { t with hostOps := [.resume (.running (v :: vs) output)] } = .next { t with
        hostOps := [], ctl := .exec, entry := .runSuspended, last := some output, inq := vs, pc := s.pc + 2,
        mem := s.mem.set (effectiveAddress dst s).toNat v }

/-- R273: an entry point may never return: `JT #c, #pc` with `c ≠ 0` at pc keeps the device in execution for ever. -/
def Obligations.JumpToItselfNeverReturns : Prop :=
  ∀ s : State, s.ctl = .exec → s.pc + 2 < s.mem.len → s.mem.get s.pc = 1105 → s.mem.get (s.pc + 1) ≠ 0 →
    s.mem.get (s.pc + 2) = (s.pc : Int) → Hangs s

/-- R275, R265: running with `run` and running with `run_suspended` and a `resume` of every Running value give, after
any number of steps, the same Memory, pc, rb, queue and last output, the same outputs in the same order, and at the end
the same final output or the same error. -/
def Obligations.RunEqualsSuspendAndResume : Prop :=
  ∀ (k : Nat) (s t : State), s.ctl = .exec → s.entry = .run → s.hostOps = [] → runSteps k s = .next t →
    ∃ u, resumedSteps k { s with entry := .runSuspended } = .next u ∧
      u.mem = t.mem ∧ u.pc = t.pc ∧ u.rb = t.rb ∧ u.inq = t.inq ∧ u.last = t.last ∧ u.ctl = t.ctl ∧
      runningOutputs u.hostResults = runningOutputs s.hostResults ++ outputsOf k s ∧
      (t.ctl = .idle →
        (∀ v, t.hostResults.getLast? = some (.lastOutput v) ↔
          u.hostResults.getLast? = some (.suspension (.halted v))) ∧
        (∀ e, t.hostResults.getLast? = some (.error e) ↔ u.hostResults.getLast? = some (.error e)))

/-- The host's probe of the opcode table (log 3, log 4, the model's own conventions): a state with a table word placed
runs exactly the instruction the decoder reads from it. -/
def Obligations.PlacedTableWordRuns : Prop :=
  ∀ (s : State) (nbits w : Nat) (i : Instr), s.mem.wf = true → decodeTableWord nbits w = some i →
    step (s.withFetchWord nbits w) = exec i (s.withFetchWord nbits w)

/-- R86, R91: every instruction decoded from Memory that holds Words has Words as raw operands, whatever the mode of its
write slot; it is well formed exactly if its write slot is legal, that is, if the slot R84 names is not Immediate. -/
def Obligations.DecodedRawsAreWords : Prop :=
  ∀ (bits : Nat) (ws rest : List Int) (i : Instr), allWords bits ws = true → decode ws = .ok (i, rest) →
    i.rawsAreWords bits = true ∧ (∀ o ∈ i.operands, representable bits o.raw) ∧
    (i.wellFormed bits = true ↔ i.writeSlotLegal = true) ∧
    (i.writeSlotLegal = true ↔ ∀ k o, i.opcode.writeSlot = some k → i.operands[k - 1]? = some o → o.mode ≠ .immediate)
end

