-- ==== Sys2Proof/Laws/Decode.lean ====
section
/-! SUPPORT. What the decoder accepts: one equivalence per part of the encoding, cited in place of unfolding it. -/

namespace Sys2Proof

theorem Mode.digit_le_two (m : Mode) : m.digit ≤ 2 := by cases m <;> simp [Mode.digit]

theorem Opcode.arity_le_three (op : Opcode) : op.arity ≤ 3 := by cases op <;> simp [Opcode.arity]

theorem Opcode.number_injective {op op' : Opcode} (h : op.number = op'.number) : op = op' := by
  cases op <;> cases op' <;> first | rfl | simp [Opcode.number] at h

theorem Opcode.ofNumber_eq_some {n : Nat} {op : Opcode} : Opcode.ofNumber n = some op ↔ n = op.number := by
  constructor
  · intro h
    unfold Opcode.ofNumber at h
    split at h <;> first | (cases h; rfl) | cases h
  · rintro rfl; cases op <;> rfl

theorem Mode.ofDigit_eq_some {d : Nat} {m : Mode} : Mode.ofDigit d = some m ↔ d = m.digit := by
  constructor
  · intro h
    unfold Mode.ofDigit at h
    split_ifs at h <;> cases h <;> assumption
  · rintro rfl; cases m <;> rfl

/-- A slot of the opcode has the mode of its digit; a slot above the arity stands as Position. -/
theorem slotMode_eq_some {n arity k : Nat} {m : Mode} :
    slotMode n arity k = some m ↔ (k ≤ arity → n / 10 ^ (k + 1) % 10 = m.digit) ∧ (arity < k → m = .position) := by
  unfold slotMode
  split
  · rw [Mode.ofDigit_eq_some, digit]
    exact ⟨fun h => ⟨fun _ => h, fun h' => by omega⟩, fun h => h.1 ‹_›⟩
  · constructor
    · intro h; cases h; exact ⟨fun h' => by omega, fun _ => rfl⟩
    · intro h; rw [h.2 (by omega)]

/-- The words R93's Decode accepts, and what it reads from them. -/
theorem decodeWord_eq_ok {w : Int} {h : Header} :
    decodeWord w = .ok h ↔ 0 ≤ w ∧ w.toNat % 100 = h.op.number ∧ slotMode w.toNat h.op.arity 1 = some h.mode1 ∧
      slotMode w.toNat h.op.arity 2 = some h.mode2 ∧ slotMode w.toNat h.op.arity 3 = some h.mode3 ∧
      w.toNat / 10 ^ (h.op.arity + 2) = 0 := by
  constructor
  · intro hd
    unfold decodeWord at hd
    split_ifs at hd with h0
    split at hd
    · cases hd
    · split at hd
      · split_ifs at hd with hz
        cases hd
        exact ⟨by omega, Opcode.ofNumber_eq_some.mp ‹_›, ‹_›, ‹_›, ‹_›, hz⟩
      · cases hd
  · rintro ⟨h0, hop, h1, h2, h3, hz⟩
    simp only [decodeWord, if_neg (show ¬ w < 0 by omega), Opcode.ofNumber_eq_some.mpr hop, h1, h2, h3, if_pos hz]

/-- What a list of Words that decodes looks like: a legal word, the raw operands of its slots, and the rest. -/
theorem decode_eq_ok {ws rest : List Int} {i : Instr} (h : decode ws = .ok (i, rest)) :
    ∃ w hd, ws = w :: (i.operands.map Operand.raw ++ rest) ∧ decodeWord w = .ok hd ∧ hd.op = i.opcode ∧
      i.operands.map Operand.mode = [hd.mode1, hd.mode2, hd.mode3].take hd.op.arity := by
  unfold decode at h
  split at h
  · cases h
  · rename_i w raws
    split at h
    · cases h
    · rename_i hd hw
      refine ⟨w, hd, ?_⟩
      obtain ⟨op, m1, m2, m3⟩ := hd
      cases op <;> simp only [decodeOperands, slots1, slots2, slots3] at h <;> (try split at h) <;> cases h <;>
        exact ⟨rfl, hw, rfl, rfl⟩

theorem Instr.operands_length (i : Instr) : i.operands.length = i.opcode.arity := by cases i <;> rfl

end Sys2Proof
end

