-- ==== Sys2Proof/Laws/Memory.lean ====
section
/-! SUPPORT. The laws of Memory: read after write, and that every operation keeps the canonical form. -/

namespace Sys2Proof.Machine

theorem representable_iff {bits : Nat} {v : Int} : representable bits v = true ↔ wmin bits ≤ v ∧ v ≤ wmax bits := by
  simp [representable]

theorem Memory.inBounds_iff {m : Memory} {a : Int} : m.inBounds a = true ↔ 0 ≤ a ∧ a < (m.len : Int) := by
  simp [Memory.inBounds]

/-- A checked address is the index of a cell. -/
theorem Memory.inBounds_toNat {m : Memory} {a : Int} (h : m.inBounds a = true) : a.toNat < m.len := by
  have := Memory.inBounds_iff.mp h
  omega

theorem lookupCell_insertCell_same (cells : List (Nat × Int)) (a : Nat) (v : Int) {lo len : Nat}
    (h : cellsWf lo len cells = true) : lookupCell (insertCell a v cells) a = v := by
  induction cells generalizing lo with
  | nil => unfold insertCell; split <;> simp_all [lookupCell]
  | cons c rest ih =>
    obtain ⟨k, w⟩ := c
    simp only [cellsWf, Bool.and_eq_true, decide_eq_true_eq] at h
    have later : ∀ (cs : List (Nat × Int)) (lo : Nat), a < lo → cellsWf lo len cs = true →
        lookupCell cs a = unlistedWord := by
      intro cs
      induction cs with
      | nil => intros; rfl
      | cons d ds ihd =>
        intro lo hlo hw
        obtain ⟨j, x⟩ := d
        simp only [cellsWf, Bool.and_eq_true, decide_eq_true_eq] at hw
        have : j ≠ a := by omega
        simp only [lookupCell, if_neg this]
        exact ihd (j + 1) (by omega) hw.2
    unfold insertCell
    split
    · split
      · have : k ≠ a := by omega
        simp only [lookupCell, if_neg this]
        rw [later rest (k + 1) (by omega) h.2]; simp_all
      · simp [lookupCell]
    · split
      · split
        · rw [later rest (k + 1) (by omega) h.2]; simp_all
        · simp [lookupCell]
      · have : k ≠ a := by omega
        simp only [lookupCell, if_neg this]
        exact ih h.2

theorem lookupCell_insertCell_other (cells : List (Nat × Int)) (a b : Nat) (v : Int) (hb : b ≠ a) :
    lookupCell (insertCell a v cells) b = lookupCell cells b := by
  induction cells with
  | nil => unfold insertCell; split <;> simp [lookupCell, Ne.symm hb]
  | cons c rest ih =>
    obtain ⟨k, w⟩ := c
    unfold insertCell
    split
    · split <;> simp [lookupCell, Ne.symm hb]
    · split
      · subst_vars; split <;> simp [lookupCell, Ne.symm hb]
      · simp only [lookupCell, ih]

theorem cellsWf_mono {lo lo' len len' : Nat} (cells : List (Nat × Int)) (hlo : lo' ≤ lo) (hlen : len ≤ len')
    (h : cellsWf lo len cells = true) : cellsWf lo' len' cells = true := by
  induction cells generalizing lo lo' with
  | nil => rfl
  | cons c rest ih =>
    obtain ⟨k, w⟩ := c
    simp only [cellsWf, Bool.and_eq_true, decide_eq_true_eq] at h ⊢
    exact ⟨⟨⟨by omega, by omega⟩, h.1.2⟩, ih le_rfl h.2⟩

theorem cellsWf_insertCell {lo len a : Nat} (v : Int) (cells : List (Nat × Int)) (hlo : lo ≤ a) (ha : a < len)
    (h : cellsWf lo len cells = true) : cellsWf lo len (insertCell a v cells) = true := by
  induction cells generalizing lo with
  | nil => unfold insertCell; split <;> simp_all [cellsWf]
  | cons c rest ih =>
    obtain ⟨k, w⟩ := c
    have h' := h
    simp only [cellsWf, Bool.and_eq_true, decide_eq_true_eq] at h
    unfold insertCell
    split
    · split
      · exact h'
      · simp only [cellsWf, Bool.and_eq_true, decide_eq_true_eq]
        exact ⟨⟨⟨hlo, ha⟩, by assumption⟩, ⟨⟨⟨by omega, h.1.1.2⟩, h.1.2⟩, h.2⟩⟩
    · split
      · subst_vars
        split
        · exact cellsWf_mono rest (by omega) le_rfl h.2
        · simp only [cellsWf, Bool.and_eq_true, decide_eq_true_eq]
          exact ⟨⟨⟨hlo, ha⟩, by assumption⟩, h.2⟩
      · simp only [cellsWf, Bool.and_eq_true, decide_eq_true_eq]
        exact ⟨h.1, ih (by omega) h.2⟩

@[simp] theorem Memory.set_len (m : Memory) (a : Nat) (v : Int) : (m.set a v).len = m.len := rfl

theorem Memory.get_set_same {m : Memory} (h : m.wf = true) (a : Nat) (v : Int) : (m.set a v).get a = v :=
  lookupCell_insertCell_same m.cells a v h

theorem Memory.get_set_other (m : Memory) {a b : Nat} (v : Int) (hb : b ≠ a) : (m.set a v).get b = m.get b :=
  lookupCell_insertCell_other m.cells a b v hb

/-- A write inside Memory keeps the canonical form. -/
theorem Memory.wf_set {m : Memory} {a : Nat} (v : Int) (ha : a < m.len) (h : m.wf = true) :
    (m.set a v).wf = true :=
  cellsWf_insertCell v m.cells (Nat.zero_le a) ha h

theorem Memory.holdsWords_set {m : Memory} {bits a : Nat} {v : Int} (hv : representable bits v)
    (h : m.holdsWords bits = true) : (m.set a v).holdsWords bits = true := by
  obtain ⟨len, cells⟩ := m
  simp only [Memory.holdsWords, Memory.set, List.all_eq_true] at h ⊢
  induction cells with
  | nil =>
    intro c hc
    unfold insertCell at hc
    split at hc
    · simp at hc
    · rw [List.mem_singleton.mp hc]; exact hv
  | cons d rest ih =>
    obtain ⟨k, w⟩ := d
    have hr := ih fun c hc => h c (List.mem_cons_of_mem _ hc)
    have hd := h (k, w) List.mem_cons_self
    intro c hc
    unfold insertCell at hc
    split at hc
    · split at hc
      · exact h c hc
      · rcases List.mem_cons.mp hc with rfl | hc
        · exact hv
        · exact h c hc
    · split at hc
      · split at hc
        · exact h c (List.mem_cons_of_mem _ hc)
        · rcases List.mem_cons.mp hc with rfl | hc
          · exact hv
          · exact h c (List.mem_cons_of_mem _ hc)
      · rcases List.mem_cons.mp hc with rfl | hc
        · exact hd
        · exact hr c hc

theorem lookupCell_word {bits : Nat} (h0 : representable bits 0) (cells : List (Nat × Int)) (a : Nat)
    (h : (cells.all fun c => representable bits c.2) = true) : representable bits (lookupCell cells a) := by
  induction cells with
  | nil => exact h0
  | cons c rest ih =>
    simp only [List.all_cons, Bool.and_eq_true] at h
    unfold lookupCell
    split
    · exact h.1
    · exact ih h.2

theorem cellsFrom_wf (ws : List Int) (i len : Nat) (h : i + ws.length ≤ len) :
    cellsWf i len (cellsFrom i ws) = true := by
  induction ws generalizing i with
  | nil => rfl
  | cons v rest ih =>
    simp only [List.length_cons] at h
    unfold cellsFrom
    split
    · exact cellsWf_mono _ (Nat.le_succ i) le_rfl (ih (i + 1) (by omega))
    · simp only [cellsWf, Bool.and_eq_true, decide_eq_true_eq]
      exact ⟨⟨⟨le_rfl, by omega⟩, by assumption⟩, ih (i + 1) (by omega)⟩

theorem le_paddedLength (pad : Option Nat) (n : Nat) : n ≤ paddedLength pad n := by
  cases pad <;> simp [paddedLength]

/-- The Memory `construct` builds is in canonical form. -/
theorem programMemory_wf (pad : Option Nat) (ws : List Int) : (programMemory pad ws).wf = true :=
  cellsFrom_wf ws 0 _ (by rw [Nat.zero_add]; exact le_paddedLength pad ws.length)

/-- The Memory `construct_empty` builds is in canonical form. -/
theorem emptyMemory_wf (capacity : Nat) : (emptyMemory capacity).wf = true := rfl

theorem Memory.setFrom_wf {m : Memory} {a : Nat} (ws : List Int) (hlen : a + ws.length ≤ m.len) (h : m.wf = true) :
    (m.setFrom a ws).wf = true := by
  induction ws generalizing m a with
  | nil => exact h
  | cons w rest ih =>
    simp only [List.length_cons] at hlen
    exact ih (by simp only [Memory.set_len]; omega) (Memory.wf_set w (by omega) h)

/-- Placing a program's words keeps the canonical form. -/
theorem Memory.loadAt_wf {m : Memory} (a : Nat) (ws : List Int) (h : m.wf = true) : (m.loadAt a ws).wf = true :=
  Memory.setFrom_wf (m := { m with len := max m.len (a + ws.length) }) ws (Nat.le_max_right _ _)
    (cellsWf_mono m.cells le_rfl (Nat.le_max_left _ _) h)

theorem Memory.wordsFrom_length (m : Memory) (a n : Nat) : (m.wordsFrom a n).length = min n (m.len - a) := by
  induction n generalizing a with
  | zero => simp [Memory.wordsFrom]
  | succ n ih =>
    unfold Memory.wordsFrom
    split
    · simp only [List.length_cons, ih]; omega
    · simp only [List.length_nil]; omega

/-- The fetched Words are the Words of Memory, in order. -/
theorem Memory.wordsFrom_get? (m : Memory) (a n k : Nat) (hk : k < n) (ha : a + k < m.len) :
    (m.wordsFrom a n)[k]? = some (m.get (a + k)) := by
  induction n generalizing a k with
  | zero => omega
  | succ n ih =>
    unfold Memory.wordsFrom
    rw [if_pos (by omega)]
    cases k with
    | zero => simp
    | succ k =>
      rw [List.getElem?_cons_succ, ih (a + 1) k (by omega) (by omega)]
      congr 2; omega

end Sys2Proof.Machine
end

