-- ==== Sys2Proof/Laws/State.lean ====
section
/-! SUPPORT. One simp lemma per field for each record update of the model. -/

namespace Sys2Proof.Machine

@[simp] theorem deliver_config (r : HostResult) (s : State) : (deliver r s).config = s.config := rfl
@[simp] theorem deliver_mem (r : HostResult) (s : State) : (deliver r s).mem = s.mem := rfl
@[simp] theorem deliver_pc (r : HostResult) (s : State) : (deliver r s).pc = s.pc := rfl
@[simp] theorem deliver_rb (r : HostResult) (s : State) : (deliver r s).rb = s.rb := rfl
@[simp] theorem deliver_ctl (r : HostResult) (s : State) : (deliver r s).ctl = .idle := rfl
@[simp] theorem deliver_entry (r : HostResult) (s : State) : (deliver r s).entry = s.entry := rfl
@[simp] theorem deliver_inq (r : HostResult) (s : State) : (deliver r s).inq = s.inq := rfl
@[simp] theorem deliver_last (r : HostResult) (s : State) : (deliver r s).last = s.last := rfl
@[simp] theorem deliver_hostOps (r : HostResult) (s : State) : (deliver r s).hostOps = s.hostOps := rfl
@[simp] theorem deliver_hostResults (r : HostResult) (s : State) : (deliver r s).hostResults = s.hostResults ++ [r] := rfl

@[simp] theorem raise_config (e : Raise) (s : State) : (raise e s).config = s.config := rfl
@[simp] theorem raise_mem (e : Raise) (s : State) : (raise e s).mem = s.mem := rfl
@[simp] theorem raise_pc (e : Raise) (s : State) : (raise e s).pc = s.pc := rfl
@[simp] theorem raise_rb (e : Raise) (s : State) : (raise e s).rb = s.rb := rfl
@[simp] theorem raise_ctl (e : Raise) (s : State) : (raise e s).ctl = .idle := rfl
@[simp] theorem raise_entry (e : Raise) (s : State) : (raise e s).entry = s.entry := rfl
@[simp] theorem raise_inq (e : Raise) (s : State) : (raise e s).inq = s.inq := rfl
@[simp] theorem raise_last (e : Raise) (s : State) : (raise e s).last = s.last := rfl
@[simp] theorem raise_hostOps (e : Raise) (s : State) : (raise e s).hostOps = s.hostOps := rfl
@[simp] theorem raise_hostResults (e : Raise) (s : State) : (raise e s).hostResults = s.hostResults ++ [.error ⟨e.kind, some s.pc, e.addr⟩] := rfl

@[simp] theorem storeWord_config (a : Int) (v : Int) (s : State) : (storeWord a v s).config = s.config := rfl
@[simp] theorem storeWord_mem (a : Int) (v : Int) (s : State) : (storeWord a v s).mem = s.mem.set a.toNat v := rfl
@[simp] theorem storeWord_pc (a : Int) (v : Int) (s : State) : (storeWord a v s).pc = s.pc := rfl
@[simp] theorem storeWord_rb (a : Int) (v : Int) (s : State) : (storeWord a v s).rb = s.rb := rfl
@[simp] theorem storeWord_ctl (a : Int) (v : Int) (s : State) : (storeWord a v s).ctl = s.ctl := rfl
@[simp] theorem storeWord_entry (a : Int) (v : Int) (s : State) : (storeWord a v s).entry = s.entry := rfl
@[simp] theorem storeWord_inq (a : Int) (v : Int) (s : State) : (storeWord a v s).inq = s.inq := rfl
@[simp] theorem storeWord_last (a : Int) (v : Int) (s : State) : (storeWord a v s).last = s.last := rfl
@[simp] theorem storeWord_hostOps (a : Int) (v : Int) (s : State) : (storeWord a v s).hostOps = s.hostOps := rfl
@[simp] theorem storeWord_hostResults (a : Int) (v : Int) (s : State) : (storeWord a v s).hostResults = s.hostResults := rfl

@[simp] theorem advance_config (n : Nat) (s : State) : (advance n s).config = s.config := rfl
@[simp] theorem advance_mem (n : Nat) (s : State) : (advance n s).mem = s.mem := rfl
@[simp] theorem advance_pc (n : Nat) (s : State) : (advance n s).pc = s.pc + n := rfl
@[simp] theorem advance_rb (n : Nat) (s : State) : (advance n s).rb = s.rb := rfl
@[simp] theorem advance_ctl (n : Nat) (s : State) : (advance n s).ctl = s.ctl := rfl
@[simp] theorem advance_entry (n : Nat) (s : State) : (advance n s).entry = s.entry := rfl
@[simp] theorem advance_inq (n : Nat) (s : State) : (advance n s).inq = s.inq := rfl
@[simp] theorem advance_last (n : Nat) (s : State) : (advance n s).last = s.last := rfl
@[simp] theorem advance_hostOps (n : Nat) (s : State) : (advance n s).hostOps = s.hostOps := rfl
@[simp] theorem advance_hostResults (n : Nat) (s : State) : (advance n s).hostResults = s.hostResults := rfl

@[simp] theorem fresh_config (c : Config) (m : Memory) (ops : List HostOp) (rs : List HostResult) :
    (State.fresh c m ops rs).config = c := rfl
@[simp] theorem fresh_mem (c : Config) (m : Memory) (ops : List HostOp) (rs : List HostResult) :
    (State.fresh c m ops rs).mem = m := rfl
@[simp] theorem fresh_pc (c : Config) (m : Memory) (ops : List HostOp) (rs : List HostResult) :
    (State.fresh c m ops rs).pc = 0 := rfl
@[simp] theorem fresh_rb (c : Config) (m : Memory) (ops : List HostOp) (rs : List HostResult) :
    (State.fresh c m ops rs).rb = 0 := rfl
@[simp] theorem fresh_ctl (c : Config) (m : Memory) (ops : List HostOp) (rs : List HostResult) :
    (State.fresh c m ops rs).ctl = .idle := rfl
@[simp] theorem fresh_entry (c : Config) (m : Memory) (ops : List HostOp) (rs : List HostResult) :
    (State.fresh c m ops rs).entry = .runSuspended := rfl
@[simp] theorem fresh_inq (c : Config) (m : Memory) (ops : List HostOp) (rs : List HostResult) :
    (State.fresh c m ops rs).inq = [] := rfl
@[simp] theorem fresh_last (c : Config) (m : Memory) (ops : List HostOp) (rs : List HostResult) :
    (State.fresh c m ops rs).last = none := rfl
@[simp] theorem fresh_hostOps (c : Config) (m : Memory) (ops : List HostOp) (rs : List HostResult) :
    (State.fresh c m ops rs).hostOps = ops := rfl
@[simp] theorem fresh_hostResults (c : Config) (m : Memory) (ops : List HostOp) (rs : List HostResult) :
    (State.fresh c m ops rs).hostResults = rs := rfl
end Sys2Proof.Machine
end

