-- ==== Sys2Proof/Laws/Ops.lean ====
section
/-! SUPPORT. What each shared operation can answer: one lemma per operation, cited in place of its definition. -/

namespace Sys2Proof.Machine

@[simp] theorem andThen_ok {α β : Type} (v : α) (f : α → Except Raise β) : andThen (.ok v) f = f v := rfl

@[simp] theorem andThen_error {α β : Type} (e : Raise) (f : α → Except Raise β) : andThen (.error e) f = .error e := rfl

theorem andThen_eq_ok {α β : Type} {x : Except Raise α} {f : α → Except Raise β} {w : β} :
    andThen x f = .ok w ↔ ∃ v, x = .ok v ∧ f v = .ok w := by
  cases x <;> simp

theorem andThen_eq_error {α β : Type} {x : Except Raise α} {f : α → Except Raise β} {e : Raise} :
    andThen x f = .error e ↔ x = .error e ∨ ∃ v, x = .ok v ∧ f v = .error e := by
  cases x <;> simp

@[simp] theorem finish_ok (s t : State) : finish s (.ok t) = .next t := rfl

@[simp] theorem finish_error (s : State) (e : Raise) : finish s (.error e) = .next (raise e s) := rfl

/-- A finished step always goes on: the commit, or the error entry. -/
theorem finish_eq_next {s t : State} {x : Except Raise State} (h : finish s x = .next t) :
    x = .ok t ∨ ∃ e, x = .error e ∧ t = raise e s := by
  cases x with
  | ok u => simp only [finish_ok, Host.Outcome.next.injEq] at h; exact .inl (by rw [h])
  | error e => simp only [finish_error, Host.Outcome.next.injEq] at h; exact .inr ⟨e, rfl, h.symm⟩

theorem checkAddress_eq_ok {a b : Int} {s : State} : checkAddress a s = .ok b ↔ s.mem.inBounds a ∧ b = a := by
  unfold checkAddress
  split
  · constructor
    · intro h; cases h; exact ⟨‹_›, rfl⟩
    · rintro ⟨_, rfl⟩; rfl
  · simp_all

theorem checkAddress_eq_error {a : Int} {s : State} {e : Raise} :
    checkAddress a s = .error e ↔ ¬ s.mem.inBounds a ∧ e = ⟨.outOfBounds, some a⟩ := by
  unfold checkAddress
  split
  · simp_all
  · constructor
    · intro h; cases h; exact ⟨‹_›, rfl⟩
    · rintro ⟨_, rfl⟩; rfl

theorem memRead_eq_ok {a : Int} {s : State} {v : Int} :
    memRead a s = .ok v ↔ s.mem.inBounds a ∧ v = s.mem.get a.toNat := by
  simp only [memRead, andThen_eq_ok, checkAddress_eq_ok, Except.ok.injEq]
  constructor
  · rintro ⟨b, ⟨hb, rfl⟩, rfl⟩; exact ⟨hb, rfl⟩
  · rintro ⟨hb, rfl⟩; exact ⟨a, ⟨hb, rfl⟩, rfl⟩

theorem memRead_eq_error {a : Int} {s : State} {e : Raise} :
    memRead a s = .error e ↔ ¬ s.mem.inBounds a ∧ e = ⟨.outOfBounds, some a⟩ := by
  simp only [memRead, andThen_eq_error, checkAddress_eq_error]
  simp

theorem checkWriteMode_eq_ok {k : Nat} {o : Operand} {s : State} {u : Unit} :
    checkWriteMode k o s = .ok u ↔ o.mode ≠ .immediate := by
  unfold checkWriteMode; cases o.mode <;> simp

theorem checkWriteMode_eq_error {k : Nat} {o : Operand} {s : State} {e : Raise} :
    checkWriteMode k o s = .error e ↔ o.mode = .immediate ∧ e = ⟨.immediateWriteTarget, some ((s.pc : Int) + k)⟩ := by
  unfold checkWriteMode; cases o.mode <;> simp [eq_comm]

theorem writeAddress_eq_ok {o : Operand} {s : State} {ea : Int} :
    writeAddress o s = .ok ea ↔ s.mem.inBounds (effectiveAddress o s) ∧ ea = effectiveAddress o s :=
  checkAddress_eq_ok

/-- What an F3 instruction does when it does not raise (40_execution_cycle.md R121, R125). -/
theorem storeBinary_eq_ok {f : Int → Int → Except Raise Int} {a b dst : Operand} {s t : State} :
    storeBinary f a b dst s = .ok t ↔ dst.mode ≠ .immediate ∧ ∃ x y v, readOperand a s = .ok x ∧
      readOperand b s = .ok y ∧ s.mem.inBounds (effectiveAddress dst s) ∧ f x y = .ok v ∧
      t = advance 4 (storeWord (effectiveAddress dst s) v s) := by
  simp only [storeBinary, andThen_eq_ok, checkWriteMode_eq_ok, writeAddress_eq_ok, Except.ok.injEq]
  constructor
  · rintro ⟨_, h, x, hx, y, hy, ea, ⟨hb, rfl⟩, v, hv, rfl⟩; exact ⟨h, x, y, v, hx, hy, hb, hv, rfl⟩
  · rintro ⟨h, x, y, v, hx, hy, hb, hv, rfl⟩; exact ⟨(), h, x, hx, y, hy, _, ⟨hb, rfl⟩, v, hv, rfl⟩

/-- What a jump does when it does not raise (43_jump.md R180 to R182). -/
theorem jumpWhen_eq_ok {p : Int → Bool} {cond target : Operand} {s t : State} :
    jumpWhen p cond target s = .ok t ↔ ∃ c d, readOperand cond s = .ok c ∧ readOperand target s = .ok d ∧
      (p c = true ∧ s.mem.inBounds d ∧ t = { s with pc := d.toNat } ∨ p c = false ∧ t = advance 3 s) := by
  simp only [jumpWhen, andThen_eq_ok]
  constructor
  · rintro ⟨c, hc, d, hd, h⟩
    refine ⟨c, d, hc, hd, ?_⟩
    split at h
    · simp only [andThen_eq_ok, checkAddress_eq_ok, Except.ok.injEq] at h
      obtain ⟨_, ⟨hb, rfl⟩, rfl⟩ := h
      exact .inl ⟨‹_›, hb, rfl⟩
    · simp only [Except.ok.injEq] at h
      exact .inr ⟨by simp_all, h.symm⟩
  · rintro ⟨c, d, hc, hd, h⟩
    refine ⟨c, hc, d, hd, ?_⟩
    rcases h with ⟨hp, hb, rfl⟩ | ⟨hp, rfl⟩
    · rw [if_pos hp]; simp only [andThen_eq_ok, checkAddress_eq_ok, Except.ok.injEq]; exact ⟨d, ⟨hb, rfl⟩, rfl⟩
    · rw [if_neg (by simp [hp])]

theorem checkWord_eq_ok {v w : Int} {s : State} :
    checkWord v s = .ok w ↔ representable s.config.wordBits v ∧ w = v := by
  unfold checkWord
  split
  · constructor
    · intro h; cases h; exact ⟨‹_›, rfl⟩
    · rintro ⟨_, rfl⟩; rfl
  · simp_all

theorem checkWord_eq_error {v : Int} {s : State} {e : Raise} :
    checkWord v s = .error e ↔ ¬ representable s.config.wordBits v ∧ e = ⟨.overflow, none⟩ := by
  unfold checkWord
  split
  · simp_all
  · constructor
    · intro h; cases h; exact ⟨‹_›, rfl⟩
    · rintro ⟨_, rfl⟩; rfl

/-- What a completed entry point leaves apart from the controller and the results: everything. -/
theorem suspend_cases (a : Int) (s : State) :
    suspend a s = s ∨ suspend a s = deliver (.suspension (.running s.inq a)) s := by
  unfold suspend; cases s.entry <;> simp

theorem haltReturn_cases (s : State) :
    haltReturn s = deliver (.lastOutput s.last) s ∨ haltReturn s = deliver (.suspension (.halted s.last)) s := by
  unfold haltReturn; cases s.entry <;> simp

theorem enter_cases (n : Entry) (inputs : List Int) (last : Option Int) (s : State) :
    s.mem.len = 0 ∧ enter n inputs last s = raise ⟨.emptyProgram, none⟩ s ∨
    s.mem.len ≠ 0 ∧ enter n inputs last s = { s with inq := inputs, last := last, ctl := .exec, entry := n } := by
  unfold enter
  split
  · exact .inl ⟨‹_›, rfl⟩
  · exact .inr ⟨‹_›, rfl⟩

theorem ifFits_eq_next {m : Memory} {s t u : State} :
    ifFits m s t = .next u ↔ m.len ≤ s.config.maxLen ∧ u = t := by
  unfold ifFits
  split
  · simp_all [eq_comm]
  · simp_all

end Sys2Proof.Machine
end

