-- ==== Sys2Proof/Laws/Exec.lean ====
section
/-! SUPPORT. All that an instruction can do, in one inversion lemma; frames, invariants and whole-machine rules follow
from it without unfolding a meaning. -/

namespace Sys2Proof.Machine

/-- The value one of the four storing F3 instructions writes for operand values `x` and `y`. -/
inductive StoresResult (s : State) (a b dst : Operand) (x y : Int) : Instr → Int → Prop where
  | add : representable s.config.wordBits (x + y) → StoresResult s a b dst x y (.add a b dst) (x + y)
  | multiply : representable s.config.wordBits (x * y) → StoresResult s a b dst x y (.multiply a b dst) (x * y)
  | lessThan : StoresResult s a b dst x y (.lessThan a b dst) (lessThanWord x y)
  | equals : StoresResult s a b dst x y (.equals a b dst) (equalsWord x y)

/-- The seven ways an instruction can go on (40_execution_cycle.md R124, R125). -/
inductive ExecResult (s : State) : Instr → State → Prop where
  | raised (i : Instr) (e : Raise) : ExecResult s i (raise e s)
  | stored {a b dst : Operand} {x y v : Int} {i : Instr} : dst.mode ≠ .immediate → readOperand a s = .ok x →
      readOperand b s = .ok y → s.mem.inBounds (effectiveAddress dst s) → StoresResult s a b dst x y i v →
      ExecResult s i (advance 4 (storeWord (effectiveAddress dst s) v s))
  | popped {dst : Operand} {v : Int} {rest : List Int} : dst.mode ≠ .immediate →
      s.mem.inBounds (effectiveAddress dst s) → s.inq = v :: rest →
      ExecResult s (.input dst) (advance 2 (storeWord (effectiveAddress dst s) v { s with inq := rest }))
  | emitted {a : Operand} {v : Int} : readOperand a s = .ok v →
      ExecResult s (.output a) (suspend v (advance 2 { s with last := some v }))
  | jumped {cond target : Operand} {c d : Int} {i : Instr} :
      (i = .jumpIfTrue cond target ∧ c ≠ 0 ∨ i = .jumpIfFalse cond target ∧ c = 0) → readOperand cond s = .ok c →
      readOperand target s = .ok d → s.mem.inBounds d → ExecResult s i { s with pc := d.toNat }
  | passed {cond target : Operand} {c d : Int} {i : Instr} :
      (i = .jumpIfTrue cond target ∧ c = 0 ∨ i = .jumpIfFalse cond target ∧ c ≠ 0) → readOperand cond s = .ok c →
      readOperand target s = .ok d → ExecResult s i (advance 3 s)
  | adjusted {a : Operand} {v : Int} : readOperand a s = .ok v → representable s.config.wordBits (s.rb + v) →
      ExecResult s (.adjustRelativeBase a) (advance 2 { s with rb := s.rb + v })
  | halted : ExecResult s .halt (haltReturn s)

/-- A finished computation is the error entry, or what its value says. -/
theorem finish_result {s t : State} {i : Instr} {x : Except Raise State} (h : finish s x = .next t)
    (hok : x = .ok t → ExecResult s i t) : ExecResult s i t := by
  rcases finish_eq_next h with hx | ⟨e, _, rfl⟩
  · exact hok hx
  · exact .raised i e

/-- Every next state of an instruction is one of the seven. -/
theorem exec_result {i : Instr} {s t : State} (h : exec i s = .next t) : ExecResult s i t := by
  cases i with
  | add a b dst =>
    refine finish_result h fun hs => ?_
    obtain ⟨hm, x, y, v, hx, hy, hb, hv, rfl⟩ := storeBinary_eq_ok.mp hs
    obtain ⟨hr, rfl⟩ := checkWord_eq_ok.mp hv
    exact .stored hm hx hy hb (.add hr)
  | multiply a b dst =>
    refine finish_result h fun hs => ?_
    obtain ⟨hm, x, y, v, hx, hy, hb, hv, rfl⟩ := storeBinary_eq_ok.mp hs
    obtain ⟨hr, rfl⟩ := checkWord_eq_ok.mp hv
    exact .stored hm hx hy hb (.multiply hr)
  | lessThan a b dst =>
    refine finish_result h fun hs => ?_
    obtain ⟨hm, x, y, v, hx, hy, hb, hv, rfl⟩ := storeBinary_eq_ok.mp hs
    cases hv
    exact .stored hm hx hy hb .lessThan
  | equals a b dst =>
    refine finish_result h fun hs => ?_
    obtain ⟨hm, x, y, v, hx, hy, hb, hv, rfl⟩ := storeBinary_eq_ok.mp hs
    cases hv
    exact .stored hm hx hy hb .equals
  | input dst =>
    refine finish_result h fun hs => ?_
    simp only [andThen_eq_ok, checkWriteMode_eq_ok, writeAddress_eq_ok] at hs
    obtain ⟨_, hm, _, ⟨hb, rfl⟩, hs⟩ := hs
    split at hs
    · cases hs
    · cases hs
      exact .popped hm hb ‹_›
  | output a =>
    refine finish_result h fun hs => ?_
    obtain ⟨v, hv, hs⟩ := andThen_eq_ok.mp hs
    cases hs
    exact .emitted hv
  | jumpIfTrue cond target =>
    refine finish_result h fun hs => ?_
    obtain ⟨c, d, hc, hd, ⟨hp, hb, rfl⟩ | ⟨hp, rfl⟩⟩ := jumpWhen_eq_ok.mp hs
    · exact .jumped (.inl ⟨rfl, of_decide_eq_true hp⟩) hc hd hb
    · exact .passed (.inl ⟨rfl, by simpa using hp⟩) hc hd
  | jumpIfFalse cond target =>
    refine finish_result h fun hs => ?_
    obtain ⟨c, d, hc, hd, ⟨hp, hb, rfl⟩ | ⟨hp, rfl⟩⟩ := jumpWhen_eq_ok.mp hs
    · exact .jumped (.inr ⟨rfl, of_decide_eq_true hp⟩) hc hd hb
    · exact .passed (.inr ⟨rfl, of_decide_eq_false hp⟩) hc hd
  | adjustRelativeBase a =>
    refine finish_result h fun hs => ?_
    simp only [andThen_eq_ok, checkWord_eq_ok] at hs
    obtain ⟨v, hv, _, ⟨hr, rfl⟩, hs⟩ := hs
    cases hs
    exact .adjusted hv hr
  | halt =>
    cases h
    exact .halted

/-- No instruction stops: each answers a next state, by its effect or by the error entry. -/
theorem exec_goes_on (i : Instr) (s : State) : ∃ t, exec i s = .next t := by
  have hf : ∀ x, ∃ t, finish s x = .next t := by intro x; cases x <;> simp
  cases i <;> first | exact hf _ | exact ⟨_, rfl⟩

/-- What no instruction touches: the parameters, the length, the host's operations and the entry kind. -/
theorem exec_fixed {i : Instr} {s t : State} (h : exec i s = .next t) :
    t.config = s.config ∧ t.mem.len = s.mem.len ∧ t.hostOps = s.hostOps ∧ t.entry = s.entry := by
  cases exec_result h with
  | @emitted a v hv =>
    rcases suspend_cases v (advance 2 { s with last := some v }) with hs | hs <;> rw [hs] <;> exact ⟨rfl, rfl, rfl, rfl⟩
  | halted => rcases haltReturn_cases s with hs | hs <;> rw [hs] <;> exact ⟨rfl, rfl, rfl, rfl⟩
  | _ => exact ⟨rfl, rfl, rfl, rfl⟩

/-- A well-typed host operation of an idle device is performed by the next step (47_controller.md R272). -/
theorem step_host {s : State} {op : HostOp} {rest : List HostOp} (hc : s.ctl = .idle) (ho : s.hostOps = op :: rest)
    (hw : op.wellTyped s.config.wordBits = true) : step s = hostPerform op { s with hostOps := rest } := by
  simp only [step, hc, hostStep, ho, hostCall, if_pos hw]

/-- An ill-typed host operation of an idle device is refused (log 8). -/
theorem step_host_illTyped {s : State} {op : HostOp} {rest : List HostOp} (hc : s.ctl = .idle)
    (ho : s.hostOps = op :: rest) (hw : ¬ op.wellTyped s.config.wordBits = true) :
    step s = .refused .illTypedHostOperation := by
  simp only [step, hc, hostStep, ho, hostCall, if_neg hw]

end Sys2Proof.Machine
end

