-- ==== Sys2Proof/Laws/Load.lean ====
section
/-! SUPPORT. What the operations that fill a Memory leave in its cells, and that a construction, a fetch and a decoder
keep to Words. -/

namespace Sys2Proof.Machine

@[simp] theorem Memory.setFrom_len (m : Memory) (a : Nat) (ws : List Int) : (m.setFrom a ws).len = m.len := by
  induction ws generalizing m a with
  | nil => rfl
  | cons w rest ih => exact ih (m.set a w) (a + 1)

theorem Memory.get_setFrom_below (m : Memory) {a b : Nat} (ws : List Int) (hb : b < a) :
    (m.setFrom a ws).get b = m.get b := by
  induction ws generalizing m a with
  | nil => rfl
  | cons w rest ih => rw [Memory.setFrom, ih _ (by omega), Memory.get_set_other _ _ (by omega)]

/-- The Words of a placed list stand where they were placed. -/
theorem Memory.get_setFrom {m : Memory} {a k : Nat} {ws : List Int} {w : Int} (h : m.wf = true)
    (hl : a + ws.length ≤ m.len) (hk : ws[k]? = some w) : (m.setFrom a ws).get (a + k) = w := by
  induction ws generalizing m a k with
  | nil => simp at hk
  | cons x rest ih =>
    simp only [List.length_cons] at hl
    cases k with
    | zero =>
      simp only [List.getElem?_cons_zero, Option.some.injEq] at hk
      rw [Memory.setFrom, Memory.get_setFrom_below _ _ (by omega), Nat.add_zero, Memory.get_set_same h, hk]
    | succ k =>
      rw [Memory.setFrom, show a + (k + 1) = a + 1 + k by omega]
      exact ih (Memory.wf_set x (by omega) h) (by simp only [Memory.set_len]; omega) (by simpa using hk)

theorem lookupCell_cellsFrom_below {i a : Nat} (ws : List Int) (h : a < i) : lookupCell (cellsFrom i ws) a = 0 := by
  induction ws generalizing i with
  | nil => rfl
  | cons v rest ih =>
    unfold cellsFrom
    split
    · exact ih (by omega)
    · rw [lookupCell, if_neg (by omega)]; exact ih (by omega)

/-- Cell `i + k` of a list placed from `i` on holds its Word `k`, or 0 past its end. -/
theorem lookupCell_cellsFrom (i k : Nat) (ws : List Int) : lookupCell (cellsFrom i ws) (i + k) = (ws[k]?).getD 0 := by
  induction ws generalizing i k with
  | nil => simp [cellsFrom, lookupCell, unlistedWord]
  | cons v rest ih =>
    unfold cellsFrom
    cases k with
    | zero =>
      split
      · rw [lookupCell_cellsFrom_below rest (by omega)]; simp_all [unlistedWord]
      · simp [lookupCell]
    | succ k =>
      have hk := ih (i + 1) k
      rw [show i + 1 + k = i + (k + 1) by omega] at hk
      split
      · simpa using hk
      · rw [lookupCell, if_neg (by omega)]; simpa using hk

theorem parseTokens_cons {bits i : Nat} {t : List Char} {ts : List (List Char)} {v : Int} {vs : List Int} :
    parseTokens bits i (t :: ts) = .ok (v :: vs) ↔
      tokenValue bits t = some v ∧ parseTokens bits (i + 1) ts = .ok vs := by
  cases hv : tokenValue bits t with
  | none => simp [parseTokens, hv]
  | some w => cases hp : parseTokens bits (i + 1) ts <;> simp [parseTokens, hv, hp]

/-- A list of tokens parses exactly if every token is valid, and then to their values in order
(70_reset_and_hazards.md R340). -/
theorem parseTokens_eq_ok {bits i : Nat} {tokens : List (List Char)} {ws : List Int} :
    parseTokens bits i tokens = .ok ws ↔ tokens.map (tokenValue bits) = ws.map some := by
  induction tokens generalizing i ws with
  | nil => cases ws <;> simp [parseTokens]
  | cons t ts ih =>
    cases ws with
    | cons v vs => rw [parseTokens_cons, ih]; simp
    | nil =>
      cases hv : tokenValue bits t with
      | none => simp [parseTokens, hv]
      | some w => cases hp : parseTokens bits (i + 1) ts <;> simp [parseTokens, hv, hp]

/-- The values of a text's tokens are Words (70_reset_and_hazards.md R341). -/
theorem parseTokens_words {bits i : Nat} {tokens : List (List Char)} {ws : List Int}
    (h : parseTokens bits i tokens = .ok ws) : allWords bits ws = true := by
  refine List.all_eq_true.mpr fun v hv => ?_
  have hm : some v ∈ tokens.map (tokenValue bits) := by rw [parseTokens_eq_ok.mp h]; exact List.mem_map_of_mem hv
  obtain ⟨t, -, ht⟩ := List.mem_map.mp hm
  unfold tokenValue at ht
  split at ht
  · cases ht
  · split_ifs at ht
    cases ht; assumption

theorem programMemory_holdsWords {bits : Nat} (pad : Option Nat) {ws : List Int} (h : allWords bits ws = true) :
    (programMemory pad ws).holdsWords bits = true := by
  have key : ∀ (ws : List Int) (i : Nat), allWords bits ws = true →
      ((cellsFrom i ws).all fun c => representable bits c.2) = true := by
    intro ws
    induction ws with
    | nil => intros; rfl
    | cons v rest ih =>
      intro i h
      simp only [allWords, List.all_cons, Bool.and_eq_true] at h
      unfold cellsFrom
      split
      · exact ih (i + 1) h.2
      · simp only [List.all_cons, Bool.and_eq_true]; exact ⟨h.1, ih (i + 1) h.2⟩
  exact key ws 0 h

/-- Fetching from a Memory of Words gives Words. -/
theorem Memory.wordsFrom_words {m : Memory} {bits : Nat} (h0 : representable bits 0 = true)
    (h : m.holdsWords bits = true) (a n : Nat) : allWords bits (m.wordsFrom a n) = true := by
  induction n generalizing a with
  | zero => rfl
  | succ n ih =>
    unfold Memory.wordsFrom
    split
    · simp only [allWords, List.all_cons, Bool.and_eq_true]; exact ⟨lookupCell_word h0 _ _ h, ih (a + 1)⟩
    · rfl

/-- A decoded instruction lies inside Memory (40_execution_cycle.md R113). -/
theorem Memory.decode_inside {m : Memory} {a : Nat} {i : Instr} {rest : List Int}
    (h : decode (m.wordsFrom a 4) = .ok (i, rest)) : a + i.opcode.arity < m.len := by
  obtain ⟨w, hd, hws, -, -, -⟩ := decode_eq_ok h
  have hl := congrArg List.length hws
  rw [Memory.wordsFrom_length] at hl
  simp only [List.length_cons, List.length_append, List.length_map, Instr.operands_length] at hl
  omega

/-- 0 and 1 are Words for every legal width (00_scope.md R7). -/
theorem zero_one_words {c : Config} (h : c.valid) :
    representable c.wordBits 0 = true ∧ representable c.wordBits 1 = true := by
  have hp : 2 ≤ 2 ^ (c.wordBits - 1) := Nat.le_self_pow (by have := h.1; omega) 2
  simp only [representable_iff, wmin, wmax, wordHalf]
  generalize 2 ^ (c.wordBits - 1) = p at hp
  omega

end Sys2Proof.Machine
end

