-- ==== Sys2Proof/Laws/PerInstr.lean ====
section
/-! SUPPORT. Facts about every instruction as syntax, one lemma per constructor. -/

namespace Sys2Proof.Laws.EncodeShape

/-- An instruction's encoding is as long as R87 says, its Words after the first are its raw operands (R80, R86), it has
as many operands as its opcode's arity (R84), and its write slot, where R84 gives it one, is its last. -/
def Statement (i : Instr) : Prop :=
  (encode i).length = i.length ∧ (encode i).tail = i.operands.map Operand.raw ∧ i.operands.length = i.opcode.arity ∧
  ∀ k, i.opcode.writeSlot = some k → k = i.opcode.arity

theorem add (a b dst : Operand) : Statement (.add a b dst) :=
  ⟨rfl, rfl, rfl, fun _ h => by cases h; rfl⟩

theorem multiply (a b dst : Operand) : Statement (.multiply a b dst) :=
  ⟨rfl, rfl, rfl, fun _ h => by cases h; rfl⟩

theorem input (dst : Operand) : Statement (.input dst) :=
  ⟨rfl, rfl, rfl, fun _ h => by cases h; rfl⟩

theorem output (a : Operand) : Statement (.output a) :=
  ⟨rfl, rfl, rfl, fun _ h => by cases h⟩

theorem jumpIfTrue (cond target : Operand) : Statement (.jumpIfTrue cond target) :=
  ⟨rfl, rfl, rfl, fun _ h => by cases h⟩

theorem jumpIfFalse (cond target : Operand) : Statement (.jumpIfFalse cond target) :=
  ⟨rfl, rfl, rfl, fun _ h => by cases h⟩

theorem lessThan (a b dst : Operand) : Statement (.lessThan a b dst) :=
  ⟨rfl, rfl, rfl, fun _ h => by cases h; rfl⟩

theorem equals (a b dst : Operand) : Statement (.equals a b dst) :=
  ⟨rfl, rfl, rfl, fun _ h => by cases h; rfl⟩

theorem adjustRelativeBase (a : Operand) : Statement (.adjustRelativeBase a) :=
  ⟨rfl, rfl, rfl, fun _ h => by cases h⟩

theorem halt : Statement .halt :=
  ⟨rfl, rfl, rfl, fun _ h => by cases h⟩

end Sys2Proof.Laws.EncodeShape
end

