-- ==== Sys2Proof/Laws/System.lean ====
section
/-! SUPPORT. What an operation on one device of a system can answer. -/

namespace Sys2Proof.Machine

theorem updateDevice_eq_next {k : Nat} {o : Out} {sys sys' : System} :
    updateDevice k o sys = .next sys' ↔ ∃ t, o = .next t ∧ sys' = sys.set k t := by
  cases o <;> simp [updateDevice, eq_comm]

theorem System.hasIdle_iff {sys : System} {m : Memory} :
    sys.hasIdle m = true ↔ ∃ s ∈ sys, s.ctl = .idle ∧ s.mem = m := by
  simp [System.hasIdle]

/-- What a system refuses to copy: only a `mimic` of a Memory that no idle device has. -/
theorem System.admits_iff {sys : System} {op : HostOp} :
    sys.admits op = true ↔ ∀ m, op = .mimic m → sys.hasIdle m = true := by
  cases op <;> simp [System.admits]

/-- Every step that goes on is the device's own, and what it takes from its list is admitted. -/
theorem systemStep_eq_next {k : Nat} {s : State} {sys sys' : System} (hk : sys[k]? = some s) :
    systemStep k sys = .next sys' ↔
      (∀ op, s.nextOp = some op → sys.admits op = true) ∧ ∃ t, step s = .next t ∧ sys' = sys.set k t := by
  simp only [systemStep, hk]
  cases s.nextOp with
  | none => simp [updateDevice_eq_next]
  | some op => cases ha : sys.admits op <;> simp [ha, updateDevice_eq_next]

/-- Every call that goes on was made on an idle device, and is admitted. -/
theorem systemCall_eq_next {k : Nat} {op : HostOp} {sys sys' : System} :
    systemCall k op sys = .next sys' ↔ sys.admits op = true ∧
      ∃ s t, sys[k]? = some s ∧ s.ctl = .idle ∧ hostCall op s = .next t ∧ sys' = sys.set k t := by
  unfold systemCall
  cases sys[k]? with
  | none => simp
  | some s => cases hc : s.ctl <;> cases ha : sys.admits op <;> simp [hc, updateDevice_eq_next]

/-- Every mimic that goes on is a call with an idle device's Memory. -/
theorem systemMimic_eq_next {k j : Nat} {sys sys' : System} :
    systemMimic k j sys = .next sys' ↔
      ∃ other, sys[j]? = some other ∧ other.ctl = .idle ∧ systemCall k (.mimic other.mem) sys = .next sys' := by
  unfold systemMimic
  cases sys[j]? with
  | none => simp
  | some other => cases hc : other.ctl <;> simp [hc]

end Sys2Proof.Machine
end

