-- ==== Sys2Proof/Tests/Slice0.lean ====
section
/-! SUPPORT. Tests: every expected value is one of 95_test_vectors.md (its id is in the docstring) or worked by hand from the
rule named. Then one witness per statement with hypotheses: a concrete state and operands that meet all of them. -/

namespace Sys2Proof.Tests

open Sys2Proof.Machine Sys2Proof.Safety

/-- A device constructed from `ws` with no padding, executing at `pc`. -/
def device (ws : List Int) (pc : Nat) (rb : Int) (inq : List Int) : State :=
  { State.fresh Config.default (programMemory none ws) [] [] with pc := pc, rb := rb, inq := inq, ctl := .exec }

/-- The same device idle, with one operation to perform. -/
def hosted (ws : List Int) (pc : Nat) (op : HostOp) : State :=
  { device ws pc 0 [] with ctl := .idle, hostOps := [op] }

/-- The state a step ends in. -/
def after (o : Out) : Option State :=
  match o with
  | .next t => some t
  | .fault _ => none
  | .refused _ => none

/-- The cell `a` after a step. -/
def cell (a : Nat) (o : Out) : Option Int := (after o).map fun t => t.mem.get a

/-- The pc after a step. -/
def pcOf (o : Out) : Option Nat := (after o).map State.pc

/-- The results the host has after a step. -/
def results (o : Out) : Option (List HostResult) := (after o).map State.hostResults

/-! ### Well-formedness -/

/-- R91: Relative and Position write slots are legal. -/
theorem test_wellFormed_accepts : (Instr.add (.imm 7) (.imm 5) (.rel 0)).wellFormed 64 = true ∧
    (Instr.input (.pos 0)).wellFormed 64 = true ∧ (Instr.output (.imm (-1))).wellFormed 64 = true ∧
    Instr.halt.wellFormed 64 = true := by decide

/-- R91: an Immediate write slot is refused in every instruction that has a write slot. -/
theorem test_wellFormed_refuses_immediate_write : (Instr.add (.pos 0) (.pos 0) (.imm 0)).wellFormed 64 = false ∧
    (Instr.multiply (.pos 0) (.pos 0) (.imm 0)).wellFormed 64 = false ∧
    (Instr.lessThan (.pos 0) (.pos 0) (.imm 0)).wellFormed 64 = false ∧
    (Instr.equals (.pos 0) (.pos 0) (.imm 0)).wellFormed 64 = false ∧
    (Instr.input (.imm 0)).wellFormed 64 = false := by decide

/-- R86, R7: a raw operand outside the Word range is refused, its limits are not. -/
theorem test_wellFormed_refuses_wide_raw : (Instr.output (.imm 9223372036854775808)).wellFormed 64 = false ∧
    (Instr.output (.imm (-9223372036854775809))).wellFormed 64 = false ∧
    (Instr.output (.imm 9223372036854775807)).wellFormed 64 = true ∧
    (Instr.output (.imm (-9223372036854775808))).wellFormed 64 = true := by decide

/-- R7, R24: the parameters of reset are legal, a width below 64 and a MAX_LEN above WMAX are not. -/
theorem test_config : Config.default.valid ∧ ¬ (Config.mk 63 5 none).valid ∧
    ¬ (Config.mk 64 9223372036854775808 none).valid := by decide

/-! ### Decoding -/

/-- One word per family, written digit by digit from R81 and R84. -/
theorem test_decode_families :
    decode [1002, 4, 3, 4] = .ok (.multiply (.pos 4) (.imm 3) (.pos 4), []) ∧
    decode [22201, -1, -1, 0] = .ok (.add (.rel (-1)) (.rel (-1)) (.rel 0), []) ∧
    decode [3, 12] = .ok (.input (.pos 12), []) ∧
    decode [204, 0, 99] = .ok (.output (.rel 0), [99]) ∧
    decode [1005, 12, 2] = .ok (.jumpIfTrue (.pos 12) (.imm 2), []) ∧
    decode [6, 3, 9, 1] = .ok (.jumpIfFalse (.pos 3) (.pos 9), [1]) ∧
    decode [11107, 1, 2, 5] = .ok (.lessThan (.imm 1) (.imm 2) (.imm 5), []) ∧
    decode [1108, 8, 8, 5] = .ok (.equals (.imm 8) (.imm 8) (.pos 5), []) ∧
    decode [109, 19] = .ok (.adjustRelativeBase (.imm 19), []) ∧
    decode [99] = .ok (.halt, []) := ⟨rfl, rfl, rfl, rfl, rfl, rfl, rfl, rfl, rfl, rfl⟩

/-- T-D-16 to T-D-31: the illegal words. -/
theorem test_decode_illegal :
    ([0, 10, 98, 100, -1, -101, 1198].all fun w =>
      match decodeWord w with
      | .error .unknownOpcode => true
      | _ => false) = true ∧
    ([301, 3001, 30001, 199, 10099, 1104, 11105, 100001, 120001].all fun w =>
      match decodeWord w with
      | .error .unsupportedParameterMode => true
      | _ => false) = true := by decide

/-- R94, R96 (section 2.1): the encodings of `ADD #7, #5, @0`, `JMP #17`, `OUT @-1` and `MOV 5, 6`. -/
theorem test_encode : encode (.add (.imm 7) (.imm 5) (.rel 0)) = [21101, 7, 5, 0] ∧
    encode (Instr.jmp (.imm 17)) = [1105, 1, 17] ∧ encode (.output (.rel (-1))) = [204, -1] ∧
    encode (Instr.mov (.pos 5) (.pos 6)) = [1001, 5, 0, 6] := by decide

/-- The rows' own words with operand Words of zeros (log 3). -/
theorem test_decodeTableWord : decodeTableWord 8 99 = some .halt ∧
    decodeTableWord 8 1 = some (.add (.pos 0) (.pos 0) (.pos 0)) ∧ decodeTableWord 8 0 = none ∧
    decodeTableWord 128 (104 + 2 ^ 64 * (2 ^ 64 - 1)) = some (.output (.imm (-1))) := by decide

/-- A placed word is the next instruction fetched, from reset and from elsewhere. -/
theorem test_withFetchWord : fetchWords (State.reset.withFetchWord 8 99) = [99, 0, 0, 0] ∧
    fetchWords ((device [5, 6, 7] 2 0 []).withFetchWord 8 4) = [4, 0, 0, 0] := by decide

/-! ### One step per instruction -/

/-- T-A-2 and T-A-14: an exact sum of Immediates; the next instruction word may be the destination. -/
theorem test_add : cell 5 (step (device [1101, -7, 3, 5, 99, 0] 0 0 [])) = some (-4) ∧
    pcOf (step (device [1101, -7, 3, 5, 99, 0] 0 0 [])) = some 4 ∧
    cell 4 (step (device [1101, 90, 9, 4, 1, 0, 0, 0] 0 0 [])) = some 99 := by decide

/-- T-A-4, T-A-5: WMAX is a result, WMAX + 1 an Overflow. -/
theorem test_add_overflow :
    cell 5 (step (device [1101, 9223372036854775807, 0, 5, 99, 0] 0 0 [])) = some 9223372036854775807 ∧
    results (step (device [1101, 9223372036854775807, 1, 5, 99, 0] 0 0 [])) =
      some [.error ⟨.overflow, some 0, none⟩] := by decide

/-- T-A-8, V3: the product's sign; the word's own Memory as operand. -/
theorem test_multiply : cell 5 (step (device [1102, -3, 5, 5, 99, 0] 0 0 [])) = some (-15) ∧
    cell 4 (step (device [1002, 4, 3, 4, 33] 0 0 [])) = some 99 := by decide

/-- T-A-11: WMIN * -1 overflows. -/
theorem test_multiply_overflow :
    results (step (device [1102, -9223372036854775808, -1, 5, 99, 0] 0 0 [])) =
      some [.error ⟨.overflow, some 0, none⟩] := by decide

/-- T-OR-7: a Relative write with a negative base pops the queue. -/
theorem test_input : cell 3 (step (device [109, -1, 203, 4, 99, 0] 2 (-1) [6, 8])) = some 6 ∧
    (after (step (device [109, -1, 203, 4, 99, 0] 2 (-1) [6, 8]))).map State.inq = some [8] := by decide

/-- T-IO-2, T-E-19: an empty queue is an error; a bad address comes first and keeps the queue. -/
theorem test_input_errors :
    results (step (device [3, 0, 99] 0 0 [])) = some [.error ⟨.emptyInput, some 0, none⟩] ∧
    (after (step (device [203, -1, 99] 0 0 [4]))).map (fun t => (t.inq, t.hostResults)) =
      some ([4], [.error ⟨.outOfBounds, some 0, some (-1)⟩]) := by decide

/-- T-CT-3: an Output suspends with the unconsumed inputs. -/
theorem test_output :
    (after (step (device [3, 4, 4, 4, 7] 2 0 [2, 3]))).map (fun t => (t.pc, t.last, t.ctl, t.hostResults)) =
      some (4, some 7, .idle, [.suspension (.running [2, 3] 7)]) := by decide

/-- T-CT-2: under `run` an Output does not end the call. -/
theorem test_output_run :
    (after (step { device [104, 1, 104, 2, 99] 0 0 [] with entry := .run })).map
      (fun t => (t.pc, t.last, t.ctl, t.hostResults)) = some (2, some 1, .exec, []) := by decide

/-- T-J-1, T-J-2, T-J-7: taken, not taken; a negative condition is true and a negative target out of bounds. -/
theorem test_jumpIfTrue : pcOf (step (device [1105, 1, 4, 0, 99] 0 0 [])) = some 4 ∧
    pcOf (step (device [1105, 0, 4, 99, 99] 0 0 [])) = some 3 ∧
    results (step (device [1105, -1, -2, 99] 0 0 [])) = some [.error ⟨.outOfBounds, some 0, some (-2)⟩] := by decide

/-- T-J-3, T-J-4, T-J-6: taken; an unused Immediate target is not checked, a Position target is read. -/
theorem test_jumpIfFalse : pcOf (step (device [1106, 0, 4, 0, 99] 0 0 [])) = some 4 ∧
    pcOf (step (device [1106, 1, 7, 99] 0 0 [])) = some 3 ∧
    results (step (device [6, 3, 9, 1] 0 0 [])) = some [.error ⟨.outOfBounds, some 0, some 9⟩] := by decide

/-- T-C-2, T-C-7: equal operands; the comparison is signed. -/
theorem test_lessThan : cell 5 (step (device [1107, 8, 8, 5, 99, 7] 0 0 [])) = some 0 ∧
    cell 5 (step (device [1107, -9223372036854775808, 9223372036854775807, 5, 99, 0] 0 0 [])) = some 1 := by decide

/-- T-C-4, T-C-5. -/
theorem test_equals : cell 5 (step (device [1108, 8, 8, 5, 99, 7] 0 0 [])) = some 1 ∧
    cell 5 (step (device [1108, -5, 5, 5, 99, 7] 0 0 [])) = some 0 := by decide

/-- T-OR-5: the operand is read with the old base. -/
theorem test_adjustRelativeBase :
    (after (step (device [109, 5, 209, -3, 99] 2 5 []))).map (fun t => (t.rb, t.pc)) = some (214, 4) := by decide

/-- T-R-4: the base overflows and keeps its value. -/
theorem test_adjustRelativeBase_overflow :
    (after (step (device [109, 9223372036854775807, 109, 1, 99] 2 9223372036854775807 []))).map
      (fun t => (t.rb, t.hostResults)) = some (9223372036854775807, [.error ⟨.overflow, some 2, none⟩]) := by decide

/-- T-H-1, T-H-4: Halt keeps pc and returns the last output. -/
theorem test_halt :
    (after (step (device [99] 0 0 []))).map (fun t => (t.pc, t.hostResults)) =
      some (0, [.suspension (.halted none)]) ∧
    results (step { device [104, 5, 99] 2 0 [] with last := some 5 }) = some [.suspension (.halted (some 5))] := by decide

/-- T-H-4 under `run`: the last output alone. -/
theorem test_halt_run :
    results (step { device [104, 5, 99] 2 0 [] with last := some 5, entry := .run }) =
      some [.lastOutput (some 5)] := by decide

/-! ### The host's operations -/

/-- T-L-2, T-L-3, T-L-6, T-L-10, T-L-11: trimming, signs, the empty text, inner spaces, padding. -/
theorem test_construct :
    parseSource 64 [' ', ' ', '1', ',', '-', '2', ',', '+', '3', '\n'] = .ok [1, -2, 3] ∧
    parseSource 64 [] = .error 0 ∧ parseSource 64 ['1', ',', ' ', '2'] = .error 1 ∧
    programMemory (some 8) [1, 2, 3] = ⟨8, [(0, 1), (1, 2), (2, 3)]⟩ ∧
    programMemory (some 2) [1, 2, 3] = ⟨3, [(0, 1), (1, 2), (2, 3)]⟩ := ⟨rfl, rfl, rfl, rfl, rfl⟩

/-- T-CT-4: EmptyProgram, and a Halted value returned as it is. -/
theorem test_emptyProgram :
    results (step { State.reset with hostOps := [.runSuspended []] }) = some [.error ⟨.emptyProgram, some 0, none⟩] ∧
    results (step { State.reset with hostOps := [.resume (.halted none)] }) =
      some [.suspension (.halted none)] := by decide

/-- T-CT-9: `read` and `write`, in and out of bounds, at pc 8 of a memory of 12. -/
theorem test_read_write :
    results (step (hosted [0, 0, 0, 0, 0, 0, 0, 0, 99, 0, 0, 50] 8 (.read 11))) = some [.word 50] ∧
    results (step (hosted [0, 0, 0, 0, 0, 0, 0, 0, 99, 0, 0, 50] 8 (.read 12))) =
      some [.error ⟨.outOfBounds, some 8, some 12⟩] ∧
    cell 11 (step (hosted [0, 0, 0, 0, 0, 0, 0, 0, 99, 0, 0, 50] 8 (.write 11 (-4)))) = some (-4) ∧
    results (step (hosted [0, 0, 0, 0, 0, 0, 0, 0, 99, 0, 0, 50] 8 (.write 12 0))) =
      some [.error ⟨.outOfBounds, some 8, some 12⟩] := by decide

/-- T-L-12 steps 5 and 1: `mimic` copies the Memory as it stands, with pc and rb 0, and leaves the other device alone. -/
theorem test_mimic :
    match systemMimic 0 1 [hosted [2, 0, 0, 0, 99] 4 (.read 0), hosted [1, 4, 0, 0, 99] 0 (.read 0)] with
    | .next [a, b] => a.mem = programMemory none [1, 4, 0, 0, 99] ∧ a.pc = 0 ∧ a.rb = 0 ∧
        b = hosted [1, 4, 0, 0, 99] 0 (.read 0)
    | _ => False := ⟨rfl, rfl, rfl, rfl⟩

/-- A mimic of the device itself: R271's assignments (log 16). -/
theorem test_mimic_itself :
    match systemMimic 0 0 [hosted [2, 0, 99] 2 (.read 0)] with
    | .next [a] => a.mem = programMemory none [2, 0, 99] ∧ a.pc = 0 ∧ a.rb = 0
    | _ => False := ⟨rfl, rfl, rfl⟩

/-- R300's codes. -/
theorem test_error_codes :
    [ErrorKind.parseError, .outOfBounds, .missingOperand, .unsupportedParameterMode, .immediateWriteTarget, .emptyInput,
      .unknownOpcode, .emptyProgram, .overflow].map ErrorKind.code = [1, 2, 3, 4, 5, 6, 7, 8, 9] := by decide

/-- R95, R96: the assembler's spelling. -/
theorem test_asm : (Instr.add (.pos 12) (.imm (-1)) (.pos 12)).asm = "ADD 12, #-1, 12" ∧ Instr.halt.asm = "HALT" := by
  decide

/-- The memory of reset is in canonical form; so is one after a write of 0, which lists the cell no longer. -/
theorem test_memory_wf : State.reset.mem.wf = true ∧ ((programMemory none [1, 0, 3]).set 2 0).wf = true ∧
    (programMemory none [1, 0, 3]).set 2 0 = programMemory none [1, 0, 0] := by decide

/-! ### Witnesses: hypotheses that can be met -/

theorem witness_EncodeUndoesDecode :
    decode [22201, -1, -1, 0, 204] = .ok (.add (.rel (-1)) (.rel (-1)) (.rel 0), [204]) := rfl

theorem witness_OneWordPerOpcodeAndModes :
    (Opcode.output.arity < 1 → Mode.relative = .position) ∧ (Opcode.output.arity < 2 → Mode.position = .position) ∧
    (Opcode.output.arity < 3 → Mode.position = .position) ∧
    decodeWord 204 = .ok ⟨.output, .relative, .position, .position⟩ ∧
    ∃ slot : Nat → Nat, ∀ k, slot k = (((Instr.output (.rel 0)).operands[k]?).map fun o => o.mode.digit).getD 0 :=
  ⟨by decide, fun _ => rfl, fun _ => rfl, rfl, _, fun _ => rfl⟩

/-- Opcode 10, just above the set, in a negative word too; a mode digit of 3, just above the three, in the last slot. -/
theorem witness_IllegalOpcodesAndModesRaise :
    ((device [10] 0 0 []).ctl = .exec ∧ (device [10] 0 0 []).pc < (device [10] 0 0 []).mem.len ∧
      (device [10] 0 0 []).mem.get 0 % 100 ∉ [1, 2, 3, 4, 5, 6, 7, 8, 9, 99]) ∧
    (device [-90] 0 0 []).mem.get 0 % 100 ∉ [1, 2, 3, 4, 5, 6, 7, 8, 9, 99] ∧
    (0 ≤ (device [30001] 0 0 []).mem.get 0 ∧ (device [30001] 0 0 []).mem.get 0 % 100 = (Opcode.add.number : Int) ∧
      3 ≤ Opcode.add.arity ∧ (device [30001] 0 0 []).mem.get 0 / 10 ^ (3 + 1) % 10 ∉ [0, 1, 2]) := by decide

/-- The greatest negative word; the least Halt word with a digit above its modes. -/
theorem witness_NegativeAndOverlongWordsRaise :
    ((device [-1] 0 0 []).ctl = .exec ∧ (device [-1] 0 0 []).pc < (device [-1] 0 0 []).mem.len ∧
      (device [-1] 0 0 []).mem.get 0 < 0) ∧
    (0 ≤ (device [199] 0 0 []).mem.get 0 ∧ (device [199] 0 0 []).mem.get 0 % 100 = (Opcode.halt.number : Int) ∧
      (device [199] 0 0 []).mem.get 0 / 10 ^ (Opcode.halt.arity + 2) ≠ 0) := by decide

/-- pc at the end of Memory, and at its last cell. -/
theorem witness_FetchIsBoundsChecked :
    ((device [99] 1 0 []).ctl = .exec ∧ (device [99] 1 0 []).mem.len ≤ (device [99] 1 0 []).pc) ∧
    (device [99] 0 0 []).pc < (device [99] 0 0 []).mem.len := by decide

/-- An Add whose last operand is just past the end, and one whose last operand is the last cell. -/
theorem witness_OperandPresence :
    ((device [1, 0, 0] 0 0 []).ctl = .exec ∧ (device [1, 0, 0] 0 0 []).pc < (device [1, 0, 0] 0 0 []).mem.len ∧
      decodeWord ((device [1, 0, 0] 0 0 []).mem.get 0) = .ok ⟨.add, .position, .position, .position⟩ ∧
      (device [1, 0, 0] 0 0 []).mem.len ≤ (device [1, 0, 0] 0 0 []).pc + Opcode.add.arity) ∧
    (decodeWord ((device [1, 0, 0, 0] 0 0 []).mem.get 0) = .ok ⟨.add, .position, .position, .position⟩ ∧
      (device [1, 0, 0, 0] 0 0 []).pc + Opcode.add.arity < (device [1, 0, 0, 0] 0 0 []).mem.len) :=
  ⟨⟨rfl, by decide, rfl, by decide⟩, rfl, by decide⟩

theorem witness_StepRunsTheDecodedInstruction : (device [0, 104, 42, 99] 1 0 []).ctl = .exec ∧
    decode (fetchWords (device [0, 104, 42, 99] 1 0 [])) = .ok (.output (.imm 42), [99]) := ⟨rfl, rfl⟩

theorem witness_StepRunsThePlacedInstruction : (device [0, 104, 42] 1 0 []).ctl = .exec ∧
    ∀ (k : Nat) (w : Int), (encode (.output (.imm 42)))[k]? = some w →
      (device [0, 104, 42] 1 0 []).pc + k < (device [0, 104, 42] 1 0 []).mem.len ∧
      (device [0, 104, 42] 1 0 []).mem.get ((device [0, 104, 42] 1 0 []).pc + k) = w := by
  refine ⟨rfl, fun k w h => ?_⟩
  match k, h with
  | 0, h => cases h; decide
  | 1, h => cases h; decide
  | k + 2, h => cases h

/-- The first and the last cell are in bounds, their outer neighbours are not, in Position and in Relative mode. -/
theorem witness_ReadOperandFollowsItsMode :
    (device [1, 2, 3] 0 (-5) []).mem.inBounds 0 = true ∧ (device [1, 2, 3] 0 (-5) []).mem.inBounds 2 = true ∧
    ¬ (device [1, 2, 3] 0 (-5) []).mem.inBounds (-1) = true ∧ ¬ (device [1, 2, 3] 0 (-5) []).mem.inBounds 3 = true ∧
    (device [1, 2, 3] 0 (-5) []).mem.inBounds ((device [1, 2, 3] 0 (-5) []).rb + 5) = true ∧
    ¬ (device [1, 2, 3] 0 (-5) []).mem.inBounds ((device [1, 2, 3] 0 (-5) []).rb + 4) = true := by decide

/-- The write slots' conditions are the read slots'. -/
theorem witness_WriteAddressFollowsItsMode :
    (device [1, 2, 3] 0 1 []).mem.inBounds 2 = true ∧ ¬ (device [1, 2, 3] 0 1 []).mem.inBounds 3 = true ∧
    (device [1, 2, 3] 0 1 []).mem.inBounds ((device [1, 2, 3] 0 1 []).rb + 1) = true ∧
    ¬ (device [1, 2, 3] 0 1 []).mem.inBounds ((device [1, 2, 3] 0 1 []).rb + 2) = true := by decide

theorem witness_MemWriteChangesOneCell : (device [1, 2, 3] 0 0 []).mem.wf = true ∧
    (device [1, 2, 3] 0 0 []).mem.inBounds 2 = true ∧ ¬ (device [1, 2, 3] 0 0 []).mem.inBounds 3 = true := by decide

/-- WMAX is a sum and WMAX + 1 is not; WMIN is a product and WMIN * -1 is not. -/
theorem witness_ArithmeticIsExactOrOverflows :
    (∀ v, readOperand (.imm v) (device [0] 0 0 []) = .ok v) ∧ (Operand.pos 0).mode ≠ .immediate ∧
    (device [0] 0 0 []).mem.inBounds (effectiveAddress (.pos 0) (device [0] 0 0 [])) = true ∧
    representable (device [0] 0 0 []).config.wordBits (9223372036854775807 + 0) = true ∧
    ¬ representable (device [0] 0 0 []).config.wordBits (9223372036854775807 + 1) = true ∧
    representable (device [0] 0 0 []).config.wordBits (-9223372036854775808 * 1) = true ∧
    ¬ representable (device [0] 0 0 []).config.wordBits (-9223372036854775808 * -1) = true :=
  ⟨fun _ => rfl, by decide, by decide, by decide, by decide, by decide, by decide⟩

theorem witness_ComparisonsStoreOneOrZero :
    readOperand (.rel (-1)) (device [7, -2] 0 1 []) = .ok 7 ∧ readOperand (.pos 1) (device [7, -2] 0 1 []) = .ok (-2) ∧
    (Operand.rel 0).mode ≠ .immediate ∧
    (device [7, -2] 0 1 []).mem.inBounds (effectiveAddress (.rel 0) (device [7, -2] 0 1 [])) = true :=
  ⟨rfl, rfl, by decide, by decide⟩

theorem witness_ComparisonResultIsZeroOrOne :
    (device [0, 7] 0 0 []).mem.wf = true ∧ ∃ t, exec (.lessThan (.imm (-1)) (.imm 0) (.pos 1)) (device [0, 7] 0 0 []) =
      .next t ∧ ¬ ReturnsError (device [0, 7] 0 0 []) t :=
  ⟨by decide, _, rfl, by rintro ⟨e, he⟩; cases he⟩

/-- Each of the three errors, for operands that meet the conditions before it. -/
theorem witness_StoringInstructionsRaiseInOrder :
    (Operand.imm 0).mode = .immediate ∧ (Operand.pos 3).mode ≠ .immediate ∧
    readOperand (.pos 3) (device [0, 0, 0] 0 0 []) = .error ⟨.outOfBounds, some 3⟩ ∧
    readOperand (.imm 3) (device [0, 0, 0] 0 0 []) = .ok 3 ∧
    ¬ (device [0, 0, 0] 0 0 []).mem.inBounds (effectiveAddress (.pos 3) (device [0, 0, 0] 0 0 [])) = true :=
  ⟨rfl, by decide, rfl, rfl, by decide⟩

/-- The four cases of Input: Immediate, just out of bounds, an empty queue, a queue of one. -/
theorem witness_InputPopsIntoMemory :
    (Operand.imm 0).mode = .immediate ∧ (Operand.pos 2).mode ≠ .immediate ∧
    ¬ (device [3, 2] 0 0 []).mem.inBounds (effectiveAddress (.pos 2) (device [3, 2] 0 0 [])) = true ∧
    (device [3, 1] 0 0 []).mem.inBounds (effectiveAddress (.pos 1) (device [3, 1] 0 0 [])) = true ∧
    (device [3, 1] 0 0 []).inq = [] ∧ (device [3, 1] 0 0 [5]).inq = 5 :: [] ∧
    (device [3, 1] 0 0 [5]).mem.inBounds (effectiveAddress (.pos 1) (device [3, 1] 0 0 [5])) = true := by decide

theorem witness_OutputEmitsAndSuspends :
    readOperand (.pos (-1)) (device [4, -1] 0 0 []) = .error ⟨.outOfBounds, some (-1)⟩ ∧
    readOperand (.pos 1) (device [4, 1] 0 0 []) = .ok 1 ∧ (device [4, 1] 0 0 []).entry = .runSuspended ∧
    (readOperand (.pos 1) { device [4, 1] 0 0 [] with entry := .run } = .ok 1 ∧
      ({ device [4, 1] 0 0 [] with entry := .run } : State).entry = .run) := ⟨rfl, rfl, rfl, rfl, rfl⟩

/-- Conditions 0, 1 and -1; targets at the last cell and just past it; a target operand that cannot be read. -/
theorem witness_JumpIfTrueJumpsOnNonzero :
    readOperand (.pos 3) (device [5, 0, 0] 0 0 []) = .error ⟨.outOfBounds, some 3⟩ ∧
    readOperand (.imm (-1)) (device [5, 0, 0] 0 0 []) = .ok (-1) ∧ (-1 : Int) ≠ 0 ∧
    readOperand (.imm 2) (device [5, 0, 0] 0 0 []) = .ok 2 ∧ (device [5, 0, 0] 0 0 []).mem.inBounds 2 = true ∧
    ¬ (device [5, 0, 0] 0 0 []).mem.inBounds 3 = true ∧ readOperand (.imm 0) (device [5, 0, 0] 0 0 []) = .ok 0 :=
  ⟨rfl, rfl, by decide, rfl, by decide, by decide, rfl⟩

theorem witness_JumpIfFalseJumpsOnZero :
    readOperand (.rel (-1)) (device [6, 0, 0] 0 0 []) = .error ⟨.outOfBounds, some (-1)⟩ ∧
    readOperand (.pos 1) (device [6, 0, 0] 0 0 []) = .ok 0 ∧ readOperand (.imm 2) (device [6, 0, 0] 0 0 []) = .ok 2 ∧
    (device [6, 0, 0] 0 0 []).mem.inBounds 2 = true ∧ ¬ (device [6, 0, 0] 0 0 []).mem.inBounds (-1) = true ∧
    readOperand (.pos 0) (device [6, 0, 0] 0 0 []) = .ok 6 ∧ (6 : Int) ≠ 0 :=
  ⟨rfl, rfl, rfl, by decide, by decide, rfl, by decide⟩

theorem witness_AdjustAddsToTheRelativeBase :
    readOperand (.pos 2) (device [9, 0] 0 9223372036854775806 []) = .error ⟨.outOfBounds, some 2⟩ ∧
    readOperand (.imm 1) (device [9, 0] 0 9223372036854775806 []) = .ok 1 ∧
    representable (device [9, 0] 0 0 []).config.wordBits (9223372036854775806 + 1) = true ∧
    readOperand (.imm 2) (device [9, 0] 0 9223372036854775806 []) = .ok 2 ∧
    ¬ representable (device [9, 0] 0 0 []).config.wordBits (9223372036854775806 + 2) = true :=
  ⟨rfl, rfl, by decide, rfl, by decide⟩

theorem witness_HaltReturnsTheLastOutput : (device [99] 0 0 []).entry = .runSuspended ∧
    ({ device [99] 0 0 [] with entry := .run } : State).entry = .run := by decide

/-- A store that completes, a pop that completes, and one that raises. -/
theorem witness_StoringInstructionsFrame :
    (∃ t, exec (.multiply (.imm 2) (.imm 3) (.rel 1)) (device [0, 0] 0 0 []) = .next t ∧ t.mem.get 1 = 6) ∧
    (∃ t, exec (.input (.pos 1)) (device [0, 0] 0 0 [4]) = .next t ∧ t.inq = []) ∧
    ∃ t, exec (.equals (.imm 2) (.pos 2) (.pos 0)) (device [0, 0] 0 0 []) = .next t ∧ t.ctl = .idle :=
  ⟨⟨_, rfl, rfl⟩, ⟨_, rfl, rfl⟩, _, rfl, rfl⟩

theorem witness_NonStoringInstructionsFrame :
    (∃ t, exec (.adjustRelativeBase (.imm 2)) (device [0, 0] 0 0 []) = .next t ∧ t.rb = 2) ∧
    (∃ t, exec (.output (.imm 2)) (device [0, 0] 0 0 []) = .next t ∧ t.last = some 2) ∧
    ∃ t, exec (.jumpIfTrue (.imm 2) (.imm 1)) (device [0, 0] 0 0 []) = .next t ∧ t.pc = 1 :=
  ⟨⟨_, rfl, rfl⟩, ⟨_, rfl, rfl⟩, _, rfl, rfl⟩

theorem witness_PcMovesAsListed :
    ∃ t, exec (.jumpIfFalse (.imm 0) (.pos 0)) (device [1, 0] 0 0 []) = .next t ∧ t.pc = 1 := ⟨_, rfl, rfl⟩

theorem witness_OnlyAdjustWritesTheRelativeBase :
    (∃ t, exec (.adjustRelativeBase (.imm (-1))) (device [0] 0 0 []) = .next t ∧ t.rb ≠ (device [0] 0 0 []).rb) ∧
    (device [0] 0 0 []).rb = 0 := ⟨⟨_, rfl, by decide⟩, rfl⟩

theorem witness_QueueIsConsumedFromTheFront : (device [0] 0 0 [7, 8]).mem.wf = true ∧
    ∃ t, exec (.input (.pos 0)) (device [0] 0 0 [7, 8]) = .next t ∧ t.inq = [8] := ⟨by decide, _, rfl, rfl⟩

theorem witness_FailingStepChangesNothing : (device [103, 0] 0 0 [4]).ctl = .exec ∧
    ∃ t, step (device [103, 0] 0 0 [4]) = .next t ∧ ReturnsError (device [103, 0] 0 0 [4]) t :=
  ⟨rfl, _, rfl, ⟨.immediateWriteTarget, some 0, some 1⟩, rfl⟩

/-- Every row of R122 is some state's first error, in order: T-E-2, T-E-7, T-E-12, T-E-8, T-E-10, T-A-15, T-E-9,
T-E-16, T-E-17, T-IO-2, T-A-5, T-J-5; and a step of V3 has none. -/
theorem witness_FirstApplicableErrorIsReported :
    [device [1101, 1, 1, 0] 4 0 [], device [-1, 99] 0 0 [], device [30001, 0, 0, 0] 0 0 [], device [1104, 0, 99] 0 0 [],
      device [11101, 0, 0] 0 0 [], device [11101, 1, 1, 5, 99, 0] 0 0 [], device [1001, 9, 5, 99] 0 0 [],
      device [1, 0, 9, 10] 0 0 [], device [1101, 9223372036854775807, 1, 9, 99] 0 0 [], device [3, 0, 99] 0 0 [],
      device [1101, 9223372036854775807, 1, 5, 99, 0] 0 0 [], device [1105, 1, 7, 99] 0 0 []].map firstError =
    [some ⟨.outOfBounds, some 4⟩, some ⟨.unknownOpcode, none⟩, some ⟨.unsupportedParameterMode, none⟩,
      some ⟨.unsupportedParameterMode, none⟩, some ⟨.missingOperand, some 3⟩, some ⟨.immediateWriteTarget, some 3⟩,
      some ⟨.outOfBounds, some 9⟩, some ⟨.outOfBounds, some 9⟩, some ⟨.outOfBounds, some 9⟩, some ⟨.emptyInput, none⟩,
      some ⟨.overflow, none⟩, some ⟨.outOfBounds, some 7⟩] ∧
    firstError (device [1002, 4, 3, 4, 33] 0 0 []) = none ∧ (device [1002, 4, 3, 4, 33] 0 0 []).ctl = .exec := by decide

theorem witness_ExecutionEndsOnlyAsListed : (device [0] 0 0 []).ctl = .exec := rfl

/-- The Add of T-A-14 writes the next word; an Input writes the last of the next four Words; the host writes at pc. -/
theorem witness_WrittenWordIsFetchedNext :
    ((device [1101, 90, 9, 4, 1] 0 0 []).mem.wf = true ∧
      effectiveAddress (.pos 4) (device [1101, 90, 9, 4, 1] 0 0 []) =
        ((device [1101, 90, 9, 4, 1] 0 0 []).pc : Int) + (Instr.add (.imm 90) (.imm 9) (.pos 4)).length + (0 : Nat) ∧
      ∃ t, exec (.add (.imm 90) (.imm 9) (.pos 4)) (device [1101, 90, 9, 4, 1] 0 0 []) = .next t ∧
        ¬ ReturnsError (device [1101, 90, 9, 4, 1] 0 0 []) t) ∧
    ((device [3, 5, 99, 0, 0, 0] 0 0 [8]).mem.wf = true ∧
      effectiveAddress (.pos 5) (device [3, 5, 99, 0, 0, 0] 0 0 [8]) =
        ((device [3, 5, 99, 0, 0, 0] 0 0 [8]).pc : Int) + (Instr.input (.pos 5)).length + (3 : Nat) ∧
      ∃ t, exec (.input (.pos 5)) (device [3, 5, 99, 0, 0, 0] 0 0 [8]) = .next t ∧
        ¬ ReturnsError (device [3, 5, 99, 0, 0, 0] 0 0 [8]) t) ∧
    ((hosted [0, 7] 1 (.write 1 99)).mem.wf = true ∧ (hosted [0, 7] 1 (.write 1 99)).ctl = .idle ∧
      (hosted [0, 7] 1 (.write 1 99)).hostOps = [.write (((hosted [0, 7] 1 (.write 1 99)).pc : Int) + (0 : Nat)) 99] ∧
      representable 64 1 = true ∧ representable 64 99 = true ∧
      (hosted [0, 7] 1 (.write 1 99)).pc + 0 < (hosted [0, 7] 1 (.write 1 99)).mem.len) :=
  ⟨⟨by decide, rfl, _, rfl, by rintro ⟨e, he⟩; cases he⟩, ⟨by decide, rfl, _, rfl, by rintro ⟨e, he⟩; cases he⟩,
    by decide, rfl, rfl, by decide, by decide, by decide⟩

theorem witness_LengthAndParametersAreFixed : ∃ t, step (hosted [1, 2] 0 (.constructEmpty 5)) = .next t ∧ t.mem.len = 5 :=
  ⟨_, rfl, rfl⟩

/-- The invariant holds of an executing device, and of the device its Output leaves. -/
theorem witness_StepKeepsTheInvariant : Inv (device [104, 1, 99] 0 0 [5]) ∧
    ∃ t, step (device [104, 1, 99] 0 0 [5]) = .next t ∧ t.ctl = .idle :=
  ⟨⟨by decide, by decide, by decide, by decide, by decide, by decide, by decide, by decide, by decide⟩, _, rfl, rfl⟩

theorem witness_ResetHasTheInvariant : Config.default.valid ∧ 2 ^ 63 - 1 ≤ Config.default.maxLen := by decide

theorem witness_EntryPointsStartExecution :
    (hosted [99] 0 (.run [1])).ctl = .idle ∧ (hosted [99] 0 (.run [1])).mem.len ≠ 0 ∧
    allWords (hosted [99] 0 (.run [1])).config.wordBits [1] = true ∧
    representable (hosted [99] 0 (.run [1])).config.wordBits (-9223372036854775808) = true ∧
    (hosted [99] 0 (.run [1])).hostOps = [.run [1]] ∧
    (hosted [99] 0 (.runSuspended [1])).hostOps = [.runSuspended [1]] ∧
    (hosted [99] 0 (.resume (.running [1] 2))).hostOps = [.resume (.running [1] 2)] := by decide

theorem witness_EmptyProgramComesFirst :
    (hosted [] 0 (.resume (.running [] 5))).ctl = .idle ∧ (hosted [] 0 (.resume (.running [] 5))).mem.len = 0 ∧
    (hosted [] 0 (.resume (.running [] 5))).hostOps = [.resume (.running [] 5)] ∧
    (HostOp.resume (.running [] 5)).wellTyped 64 = true ∧ (HostOp.run []).wellTyped 64 = true ∧
    (HostOp.runSuspended [7]).wellTyped 64 = true := by decide

theorem witness_ResumeOfHaltedIsANoOp : (hosted [] 3 (.resume (.halted (some 2)))).ctl = .idle ∧
    (hosted [] 3 (.resume (.halted (some 2)))).hostOps = [.resume (.halted (some 2))] ∧
    allWords 64 (some (2 : Int)).toList = true := by decide

theorem witness_HostReadAndWrite :
    (hosted [1, 2] 0 (.read 1)).ctl = .idle ∧ representable 64 1 = true ∧ representable 64 (-1) = true ∧
    (hosted [1, 2] 0 (.read 1)).hostOps = [.read 1] ∧ (hosted [1, 2] 0 (.read 1)).mem.inBounds 1 = true ∧
    (hosted [1, 2] 0 (.read 2)).hostOps = [.read 2] ∧ ¬ (hosted [1, 2] 0 (.read 2)).mem.inBounds 2 = true ∧
    (hosted [1, 2] 0 (.write 0 9)).hostOps = [.write 0 9] ∧ (hosted [1, 2] 0 (.write 0 9)).mem.inBounds 0 = true ∧
    (hosted [1, 2] 0 (.write (-1) 9)).hostOps = [.write (-1) 9] ∧
    ¬ (hosted [1, 2] 0 (.write (-1) 9)).mem.inBounds (-1) = true := by decide

theorem witness_MimicCopiesTheOtherDevice :
    [State.reset, hosted [1, 0, 5] 0 (.read 0)][0]? = some State.reset ∧
    [State.reset, hosted [1, 0, 5] 0 (.read 0)][1]? = some (hosted [1, 0, 5] 0 (.read 0)) ∧ State.reset.ctl = .idle ∧
    (hosted [1, 0, 5] 0 (.read 0)).ctl = .idle ∧ (hosted [1, 0, 5] 0 (.read 0)).mem.wf = true ∧
    (hosted [1, 0, 5] 0 (.read 0)).mem.holdsWords State.reset.config.wordBits = true ∧
    (hosted [1, 0, 5] 0 (.read 0)).mem.len ≤ State.reset.config.maxLen := by decide

/-- A step, a call and a mimic that go on. -/
theorem witness_DevicesShareNoState :
    (∃ sys', systemStep 1 [State.reset, device [109, 3] 0 0 []] = .next sys' ∧ sys'.map State.rb = [0, 3]) ∧
    (∃ sys', systemCall 0 (.constructEmpty 2) [State.reset, device [109, 3] 0 0 []] = .next sys' ∧
      sys'.map (fun s => s.mem.len) = [2, 2]) ∧
    ∃ sys', systemMimic 1 0 [State.reset, hosted [7] 0 (.read 0)] = .next sys' ∧
      sys'.map (fun s => s.mem.len) = [0, 0] := ⟨⟨_, rfl, rfl⟩, ⟨_, rfl, rfl⟩, _, rfl, rfl⟩

/-- An executing device with an operation waiting; a call performed on an idle one; a listed mimic with an idle device
of its Memory in the system, and one whose device is executing, which is refused; the same for a called mimic. -/
theorem witness_HostOperationsNeverOverlapExecution :
    ((device [109, 3] 0 0 []).ctl = .exec ∧
      ∃ t, step { device [109, 3] 0 0 [] with hostOps := [.read 0] } = .next t ∧ t.hostOps = [.read 0]) ∧
    systemCall 0 (.read 0) [device [109, 3] 0 0 []] = .refused .instanceExecuting ∧
    systemMimic 0 1 [State.reset, device [109, 3] 0 0 []] = .refused .instanceExecuting ∧
    systemMimic 1 0 [State.reset, device [109, 3] 0 0 []] = .refused .instanceExecuting ∧
    (∃ t, step { State.reset with hostOps := .run [] :: State.reset.hostOps } = .next t ∧ t.ctl = .idle) ∧
    (∃ sys', systemStep 0 [hosted [7] 0 (.mimic ⟨0, []⟩), State.reset] = .next sys' ∧ sys'.length = 2) ∧
    systemStep 0 [hosted [7] 0 (.mimic ⟨0, []⟩), { State.reset with ctl := .exec }] = .refused .noSuchInstance ∧
    systemCall 0 (.mimic ⟨0, []⟩) [hosted [7] 0 (.read 0), { State.reset with ctl := .exec }] =
      .refused .noSuchInstance ∧
    ∃ sys', systemCall 0 (.mimic ⟨0, []⟩) [hosted [7] 0 (.read 0), State.reset] = .next sys' ∧ sys'.length = 2 :=
  ⟨⟨rfl, _, rfl, rfl⟩, rfl, rfl, rfl, ⟨_, rfl, rfl⟩, ⟨_, rfl, rfl⟩, rfl, rfl, _, rfl, rfl⟩

/-- The premise of the refusals: the one device with that Memory is executing. -/
theorem witness_HostOperationsNeverOverlapExecution_noIdleDevice :
    ¬ IdleDeviceHas [hosted [7] 0 (.read 0), { State.reset with ctl := .exec }] ⟨0, []⟩ := by
  rintro ⟨j, other, hj, hc, hm⟩
  match j, hj with
  | 0, hj => cases hj; cases hm
  | 1, hj => cases hj; cases hc
  | j + 2, hj => cases hj

theorem witness_IdleDeviceKeepsItsState : State.reset.ctl = .idle ∧ State.reset.hostOps = [] := by decide

theorem witness_ConstructEmptyMakesZeroCells : (hosted [1, 2] 1 (.constructEmpty (2 ^ 63 - 1))).ctl = .idle ∧
    (hosted [1, 2] 1 (.constructEmpty (2 ^ 63 - 1))).hostOps = [.constructEmpty (2 ^ 63 - 1)] ∧
    2 ^ 63 - 1 ≤ (hosted [1, 2] 1 (.constructEmpty (2 ^ 63 - 1))).config.maxLen :=
  ⟨rfl, rfl, Nat.le_refl _⟩

/-- Without a capacity, with one above the token count and with one below it. -/
theorem witness_ConstructPlacesAndPads :
    (hosted [] 0 (.construct ['1', ',', '2'])).ctl = .idle ∧
    (hosted [] 0 (.construct ['1', ',', '2'])).hostOps = [.construct ['1', ',', '2']] ∧
    (splitCommas (trimText ['1', ',', '2'])).map (tokenValue 64) = [1, 2].map some ∧
    paddedLength (hosted [] 0 (.construct ['1', ',', '2'])).config.padCapacity 2 ≤ Config.default.maxLen ∧
    paddedLength (some 3) 2 = 3 ∧ paddedLength (some 1) 2 = 2 := ⟨rfl, rfl, rfl, by decide, rfl, rfl⟩

/-- T-L-4: the empty token 1 between two valid ones. -/
theorem witness_ParseErrorNamesTheFirstBadToken :
    (hosted [] 0 (.construct ['1', ',', ',', '2'])).ctl = .idle ∧
    (hosted [] 0 (.construct ['1', ',', ',', '2'])).hostOps = [.construct ['1', ',', ',', '2']] ∧
    (splitCommas (trimText ['1', ',', ',', '2']))[1]? = some [] ∧ tokenValue 64 [] = none ∧
    ∀ (j : Nat) (u : List Char), j < 1 → (splitCommas (trimText ['1', ',', ',', '2']))[j]? = some u →
      tokenValue 64 u ≠ none := by
  refine ⟨rfl, rfl, rfl, rfl, fun j u hj hu => ?_⟩
  match j, hj, hu with
  | 0, _, hu => cases hu; decide

/-- One cell more than MAX_LEN. -/
theorem witness_OversizedConstructionIsRefused :
    ({ hosted [] 0 (.construct ['1', ',', '2']) with config := ⟨64, 1, none⟩ } : State).ctl = .idle ∧
    ({ hosted [] 0 (.construct ['1', ',', '2']) with config := ⟨64, 1, none⟩ } : State).hostOps =
      [.construct ['1', ',', '2']] ∧
    (splitCommas (trimText ['1', ',', '2'])).map (tokenValue 64) = [1, 2].map some ∧ 1 < paddedLength none [1, 2].length ∧
    ({ hosted [] 0 (.constructEmpty 2) with config := ⟨64, 1, none⟩ } : State).hostOps = [.constructEmpty 2] ∧
    ({ hosted [] 0 (.mimic ⟨2, [(1, 5)]⟩) with config := ⟨64, 1, none⟩ } : State).hostOps = [.mimic ⟨2, [(1, 5)]⟩] ∧
    (Memory.mk 2 [(1, 5)]).wf = true ∧ (Memory.mk 2 [(1, 5)]).holdsWords 64 = true :=
  ⟨rfl, rfl, rfl, by decide, rfl, rfl, by decide, by decide⟩

/-- WMAX + 1 in each place a Word is passed is refused; a Memory that lists a cell of 0 too. -/
theorem witness_IllTypedHostOperationsAreRefused :
    [hosted [7] 0 (.read 9223372036854775808), hosted [7] 0 (.write 0 9223372036854775808),
      hosted [7] 0 (.write 9223372036854775808 0), hosted [7] 0 (.run [9223372036854775808]),
      hosted [7] 0 (.runSuspended [0, 9223372036854775808]), hosted [7] 0 (.resume (.running [] 9223372036854775808)),
      hosted [7] 0 (.resume (.halted (some 9223372036854775808))), hosted [7] 0 (.mimic ⟨1, [(0, 0)]⟩)].all
      (fun s => decide (s.ctl = .idle) && match step s with
        | .refused .illTypedHostOperation => true
        | _ => false) = true := by decide

theorem witness_SourceIsCommaSeparated : [' ', '\t'].all isSpace = true ∧ ['\r', '\n'].all isSpace = true ∧
    [['1'], ['-', '2']] ≠ [] ∧ ∀ t ∈ [['1'], ['-', '2']], ∀ c ∈ t, c ≠ ',' ∧ isSpace c = false :=
  ⟨by decide, by decide, by decide, by simp [isSpace]⟩

/-- T-CT-5. -/
theorem witness_RetryAfterEmptyInputCompletes :
    (device [3, 5, 4, 5, 99, 0] 0 0 []).ctl = .exec ∧
    decode (fetchWords (device [3, 5, 4, 5, 99, 0] 0 0 [])) = .ok (.input (.pos 5), [4, 5]) ∧
    (Operand.pos 5).mode ≠ .immediate ∧
    (device [3, 5, 4, 5, 99, 0] 0 0 []).mem.inBounds
      (effectiveAddress (.pos 5) (device [3, 5, 4, 5, 99, 0] 0 0 [])) = true ∧
    (device [3, 5, 4, 5, 99, 0] 0 0 []).inq = [] ∧ allWords 64 [8] = true ∧ representable 64 0 = true :=
  ⟨rfl, rfl, by decide, by decide, rfl, by decide, by decide⟩

/-- T-J-9. -/
theorem witness_JumpToItselfNeverReturns : (device [1105, 1, 0] 0 0 []).ctl = .exec ∧
    (device [1105, 1, 0] 0 0 []).pc + 2 < (device [1105, 1, 0] 0 0 []).mem.len ∧
    (device [1105, 1, 0] 0 0 []).mem.get 0 = 1105 ∧ (device [1105, 1, 0] 0 0 []).mem.get 1 ≠ 0 ∧
    (device [1105, 1, 0] 0 0 []).mem.get 2 = ((device [1105, 1, 0] 0 0 []).pc : Int) := by decide

/-- T-CT-2: three steps, two outputs and the Halt. -/
theorem witness_RunEqualsSuspendAndResume :
    ({ device [104, 1, 104, 2, 99] 0 0 [] with entry := .run } : State).ctl = .exec ∧
    ∃ t, runSteps 3 { device [104, 1, 104, 2, 99] 0 0 [] with entry := .run } = .next t ∧
      t.hostResults = [.lastOutput (some 2)] ∧
      outputsOf 3 { device [104, 1, 104, 2, 99] 0 0 [] with entry := .run } = [1, 2] :=
  ⟨rfl, _, rfl, rfl, rfl⟩

theorem witness_PlacedTableWordRuns : State.reset.mem.wf = true ∧ decodeTableWord 8 99 = some .halt := by decide

/-- An illegal and a legal write slot. -/
theorem witness_DecodedRawsAreWords :
    (allWords 64 [103, 0] = true ∧ decode [103, 0] = .ok (.input (.imm 0), [])) ∧
    (allWords 64 [203, -9223372036854775808] = true ∧
      decode [203, -9223372036854775808] = .ok (.input (.rel (-9223372036854775808)), [])) :=
  ⟨⟨by decide, rfl⟩, by decide, rfl⟩

end Sys2Proof.Tests
end

section
/-! All that one step can do: an inversion lemma of the host's operations (47_controller.md R260 to R272,
70_reset_and_hazards.md R340 to R344), and one of `step`, which joins it to that of `exec`. -/

namespace Sys2Proof.Machine

/-- The operations that start an execution, with the queue and the last output they load (R262, R263, R265). -/
inductive StartsWith : HostOp → Entry → List Int → Option Int → Prop where
  | run (inputs : List Int) : StartsWith (.run inputs) .run inputs none
  | runSuspended (inputs : List Int) : StartsWith (.runSuspended inputs) .runSuspended inputs none
  | resume (inputs : List Int) (output : Int) :
      StartsWith (.resume (.running inputs output)) .runSuspended inputs (some output)

/-- The ways a host operation goes on; what is refused is none of them. -/
inductive HostEffect (s : State) : HostOp → State → Prop where
  | notParsed {text : List Char} {k : Nat} : parseSource s.config.wordBits text = .error k →
      HostEffect s (.construct text) (deliver (.error ⟨.parseError, none, some (k : Int)⟩) s)
  | constructed {text : List Char} {ws : List Int} : parseSource s.config.wordBits text = .ok ws →
      (programMemory s.config.padCapacity ws).len ≤ s.config.maxLen →
      HostEffect s (.construct text) (deliver .created
        (State.fresh s.config (programMemory s.config.padCapacity ws) s.hostOps s.hostResults))
  | constructedEmpty {capacity : Nat} : capacity ≤ s.config.maxLen →
      HostEffect s (.constructEmpty capacity) (deliver .created
        (State.fresh s.config (emptyMemory capacity) s.hostOps s.hostResults))
  | mimicked {other : Memory} : other.len ≤ s.config.maxLen →
      HostEffect s (.mimic other) (deliver .nothing { s with mem := other, pc := 0, rb := 0 })
  | read {a : Int} : s.mem.inBounds a → HostEffect s (.read a) (deliver (.word (s.mem.get a.toNat)) s)
  | wrote {a v : Int} : s.mem.inBounds a → HostEffect s (.write a v) (deliver .nothing (storeWord a v s))
  | outOfBounds {op : HostOp} {a : Int} : (op = .read a ∨ ∃ v, op = .write a v) → ¬ s.mem.inBounds a →
      HostEffect s op (raise ⟨.outOfBounds, some a⟩ s)
  | emptyProgram {op : HostOp} {n : Entry} {inputs : List Int} {last : Option Int} : StartsWith op n inputs last →
      s.mem.len = 0 → HostEffect s op (raise ⟨.emptyProgram, none⟩ s)
  | started {op : HostOp} {n : Entry} {inputs : List Int} {last : Option Int} : StartsWith op n inputs last →
      s.mem.len ≠ 0 → HostEffect s op { s with inq := inputs, last := last, ctl := .exec, entry := n }
  | halted {output : Option Int} :
      HostEffect s (.resume (.halted output)) (deliver (.suspension (.halted output)) s)

theorem memWrite_eq_ok {a v : Int} {s t : State} :
    memWrite a v s = .ok t ↔ s.mem.inBounds a ∧ t = storeWord a v s := by
  simp only [memWrite, andThen_eq_ok, checkAddress_eq_ok, Except.ok.injEq]
  constructor
  · rintro ⟨b, ⟨hb, rfl⟩, rfl⟩; exact ⟨hb, rfl⟩
  · rintro ⟨hb, rfl⟩; exact ⟨a, ⟨hb, rfl⟩, rfl⟩

theorem memWrite_eq_error {a v : Int} {s : State} {e : Raise} :
    memWrite a v s = .error e ↔ ¬ s.mem.inBounds a ∧ e = ⟨.outOfBounds, some a⟩ := by
  simp only [memWrite, andThen_eq_error, checkAddress_eq_error]
  simp

/-- An entry point starts, or finds an empty program (R266). -/
theorem enter_effect {op : HostOp} {n : Entry} {inputs : List Int} {last : Option Int} (s : State)
    (h : StartsWith op n inputs last) : HostEffect s op (enter n inputs last s) := by
  rcases enter_cases n inputs last s with ⟨hl, he⟩ | ⟨hl, he⟩ <;> rw [he]
  · exact .emptyProgram h hl
  · exact .started h hl

/-- Every next state of a host operation is one of the listed ones. -/
theorem hostPerform_effect {op : HostOp} {s t : State} (h : hostPerform op s = .next t) : HostEffect s op t := by
  cases op with
  | construct text =>
    simp only [hostPerform, hostConstruct] at h
    split at h
    · cases h; exact .notParsed ‹_›
    · obtain ⟨hl, rfl⟩ := ifFits_eq_next.mp h
      exact .constructed ‹_› hl
  | constructEmpty capacity =>
    obtain ⟨hl, rfl⟩ := ifFits_eq_next.mp h
    exact .constructedEmpty hl
  | mimic other =>
    obtain ⟨hl, rfl⟩ := ifFits_eq_next.mp h
    exact .mimicked hl
  | read a =>
    rcases finish_eq_next h with hx | ⟨e, he, rfl⟩
    · obtain ⟨v, hv, ht⟩ := andThen_eq_ok.mp hx
      obtain ⟨hb, rfl⟩ := memRead_eq_ok.mp hv
      cases ht
      exact .read hb
    · obtain he | ⟨_, _, he⟩ := andThen_eq_error.mp he
      · obtain ⟨hb, rfl⟩ := memRead_eq_error.mp he
        exact .outOfBounds (.inl rfl) hb
      · cases he
  | write a v =>
    rcases finish_eq_next h with hx | ⟨e, he, rfl⟩
    · obtain ⟨u, hu, ht⟩ := andThen_eq_ok.mp hx
      obtain ⟨hb, rfl⟩ := memWrite_eq_ok.mp hu
      cases ht
      exact .wrote hb
    · obtain he | ⟨_, _, he⟩ := andThen_eq_error.mp he
      · obtain ⟨hb, rfl⟩ := memWrite_eq_error.mp he
        exact .outOfBounds (.inr ⟨v, rfl⟩) hb
      · cases he
  | run inputs => cases h; exact enter_effect s (.run inputs)
  | runSuspended inputs => cases h; exact enter_effect s (.runSuspended inputs)
  | resume x =>
    cases x with
    | running inputs output => cases h; exact enter_effect s (.resume inputs output)
    | halted output => cases h; exact .halted

/-- The ways a step goes on: a fetch or decode error, the decoded instruction, an idle device without an operation, or
the host's next operation. -/
inductive StepResult (s t : State) : Prop where
  | notDecoded {e : DecodeError} : s.ctl = .exec → decode (fetchWords s) = .error e →
      t = raise (decodeRaise e s) s → StepResult s t
  | executed {i : Instr} {rest : List Int} : s.ctl = .exec → decode (fetchWords s) = .ok (i, rest) →
      exec i s = .next t → StepResult s t
  | rested : s.ctl = .idle → s.hostOps = [] → t = s → StepResult s t
  | performed {op : HostOp} {rest : List HostOp} : s.ctl = .idle → s.hostOps = op :: rest →
      op.wellTyped s.config.wordBits = true → HostEffect { s with hostOps := rest } op t → StepResult s t

/-- Every next state of a step is one of the four. -/
theorem step_result {s t : State} (h : step s = .next t) : StepResult s t := by
  cases hc : s.ctl with
  | exec =>
    simp only [step, hc, instrStep] at h
    split at h
    · cases h; exact .notDecoded hc ‹_› rfl
    · exact .executed hc ‹_› h
  | idle =>
    cases ho : s.hostOps with
    | nil =>
      simp only [step, hc, hostStep, ho, Host.Outcome.next.injEq] at h
      exact .rested hc ho h.symm
    | cons op rest =>
      by_cases hw : op.wellTyped s.config.wordBits = true
      · rw [step_host hc ho hw] at h
        exact .performed hc ho hw (hostPerform_effect h)
      · rw [step_host_illTyped hc ho hw] at h
        cases h

end Sys2Proof.Machine
end

section
/-! The parameters and the length (00_scope.md R7, 10_state.md R23). -/

namespace Sys2Proof.Machine

theorem hostEffect_config {op : HostOp} {s t : State} (h : HostEffect s op t) : t.config = s.config := by
  cases h <;> rfl

/-- The length after a host operation is the old one, or that of a constructed or of the copied Memory. -/
theorem hostEffect_len {op : HostOp} {s t : State} (h : HostEffect s op t) :
    t.mem.len = s.mem.len ∨ (∃ text, op = .construct text) ∨ (∃ n, op = .constructEmpty n ∧ t.mem.len = n) ∨
      ∃ m, op = .mimic m ∧ t.mem.len = m.len := by
  cases h with
  | constructed _ _ => exact .inr (.inl ⟨_, rfl⟩)
  | constructedEmpty _ => exact .inr (.inr (.inl ⟨_, rfl, rfl⟩))
  | mimicked _ => exact .inr (.inr (.inr ⟨_, rfl, rfl⟩))
  | _ => exact .inl rfl

/-- Settles O33: by the four results of a step; only the host's operations can change the length. -/
theorem lengthAndParametersAreFixed : Obligations.LengthAndParametersAreFixed := by
  intro s t h
  cases step_result h with
  | notDecoded _ _ ht => rw [ht]; exact ⟨rfl, .inl rfl⟩
  | executed _ _ he =>
    obtain ⟨hconfig, hlen, -, -⟩ := exec_fixed he
    exact ⟨hconfig, .inl hlen⟩
  | rested _ _ ht => rw [ht]; exact ⟨rfl, .inl rfl⟩
  | @performed op rest hc ho _ he =>
    have hconfig := hostEffect_config he
    have hlen := hostEffect_len he
    exact ⟨hconfig, hlen.imp_right fun hop => ⟨hc, op, rest, ho, hop⟩⟩

end Sys2Proof.Machine
end

section
/-! The invariant: each update of the state keeps it where the new value is a Word, or inside Memory; then so does every
instruction that lies inside Memory and has Words as raw operands, every well-typed host operation, and every step. -/

namespace Sys2Proof.Safety

open Sys2Proof.Machine

section Updates

variable {s : State}

theorem inv_deliver {r : HostResult} (h : Inv s) (hr : resultWords s.config.wordBits r = true) :
    Inv (deliver r s) :=
  { h with
    resultsWords := by
      rw [deliver_hostResults, List.all_append, Bool.and_eq_true]
      exact ⟨h.resultsWords, by simpa using hr⟩ }

theorem inv_raise (e : Raise) (h : Inv s) : Inv (raise e s) := inv_deliver h rfl

theorem inv_setPc {n : Nat} (h : Inv s) (hn : n ≤ s.mem.len) : Inv { s with pc := n } :=
  { h with pcInRange := hn }

theorem inv_advance {n : Nat} (h : Inv s) (hn : s.pc + n ≤ s.mem.len) : Inv (advance n s) := inv_setPc h hn

theorem inv_setRb {v : Int} (h : Inv s) (hv : representable s.config.wordBits v = true) : Inv { s with rb := v } :=
  { h with rbWord := hv }

theorem inv_setInq {q : List Int} (h : Inv s) (hq : allWords s.config.wordBits q = true) : Inv { s with inq := q } :=
  { h with inqWords := hq }

theorem inv_setLast {v : Option Int} (h : Inv s) (hv : allWords s.config.wordBits v.toList = true) :
    Inv { s with last := v } :=
  { h with lastWord := hv }

theorem inv_storeWord {a v : Int} (h : Inv s) (ha : s.mem.inBounds a = true)
    (hv : representable s.config.wordBits v = true) : Inv (storeWord a v s) :=
  { h with
    memCanonical := Memory.wf_set v (Memory.inBounds_toNat ha) h.memCanonical
    memWords := Memory.holdsWords_set hv h.memWords }

/-- The controller, the entry kind and the host's operations are not part of the invariant. -/
theorem inv_setControl (n : Entry) (c : Ctl) (ops : List HostOp) (h : Inv s) :
    Inv { s with ctl := c, entry := n, hostOps := ops } :=
  { h with }

/-- A new or copied Memory under the old parameters, with pc and rb 0. -/
theorem inv_replaceMemory {m : Memory} (h : Inv s) (hwf : m.wf = true)
    (hwords : m.holdsWords s.config.wordBits = true) (hlen : m.len ≤ s.config.maxLen) :
    Inv { s with mem := m, pc := 0, rb := 0 } :=
  { h with
    memCanonical := hwf
    memWords := hwords
    lenFits := hlen
    pcInRange := Nat.zero_le _
    rbWord := (zero_one_words h.configValid).1 }

theorem inv_fresh {m : Memory} (h : Inv s) (hwf : m.wf = true)
    (hwords : m.holdsWords s.config.wordBits = true) (hlen : m.len ≤ s.config.maxLen) :
    Inv (State.fresh s.config m s.hostOps s.hostResults) :=
  inv_setControl .runSuspended .idle s.hostOps
    (inv_setLast (v := none) (inv_setInq (q := []) (inv_replaceMemory h hwf hwords hlen) rfl) rfl)

theorem inv_suspend {v : Int} (h : Inv s) (hv : representable s.config.wordBits v = true) : Inv (suspend v s) := by
  rcases suspend_cases v s with hs | hs <;> rw [hs]
  · exact h
  · exact inv_deliver h ((Bool.and_eq_true _ _).mpr ⟨h.inqWords, hv⟩)

theorem inv_haltReturn (h : Inv s) : Inv (haltReturn s) := by
  rcases haltReturn_cases s with hs | hs <;> rw [hs] <;> exact inv_deliver h h.lastWord

theorem inv_get_word (h : Inv s) (a : Nat) : representable s.config.wordBits (s.mem.get a) = true :=
  lookupCell_word (zero_one_words h.configValid).1 s.mem.cells a h.memWords

end Updates

/-- An operand whose raw operand is a Word reads as one (40_execution_cycle.md R116 to R118). -/
theorem readOperand_word {s : State} {o : Operand} {v : Int} (h : Inv s)
    (ho : representable s.config.wordBits o.raw = true) (hv : readOperand o s = .ok v) :
    representable s.config.wordBits v = true := by
  have cell : memRead (effectiveAddress o s) s = .ok v → representable s.config.wordBits v = true := by
    intro hm
    obtain ⟨-, rfl⟩ := memRead_eq_ok.mp hm
    exact inv_get_word h _
  unfold readOperand at hv
  split at hv
  · exact cell hv
  · cases hv; exact ho
  · exact cell hv

theorem truthWord_word {c : Config} (hc : c.valid) (b : Bool) : representable c.wordBits (truthWord b) = true := by
  cases b
  · exact (zero_one_words hc).1
  · exact (zero_one_words hc).2

/-- What the four storing instructions write is a Word: checked for overflow, or a truth value. -/
theorem storesResult_word {s : State} {a b dst : Operand} {x y v : Int} {i : Instr} (hc : s.config.valid)
    (h : StoresResult s a b dst x y i v) : representable s.config.wordBits v = true := by
  cases h with
  | add hr => exact hr
  | multiply hr => exact hr
  | lessThan => exact truthWord_word hc _
  | equals => exact truthWord_word hc _

theorem storesResult_length {s : State} {a b dst : Operand} {x y v : Int} {i : Instr}
    (h : StoresResult s a b dst x y i v) : i.length = 4 := by
  cases h <;> rfl

/-- An instruction that lies inside Memory and whose raw operands are Words keeps the invariant. -/
theorem execResult_keeps_inv {s t : State} {i : Instr} (h : Inv s) (hpc : s.pc + i.length ≤ s.mem.len)
    (hraw : ∀ o ∈ i.operands, representable s.config.wordBits o.raw = true) (he : ExecResult s i t) : Inv t := by
  cases he with
  | raised => exact inv_raise _ h
  | stored _ _ _ hb hv =>
    rw [storesResult_length hv] at hpc
    exact inv_advance (inv_storeWord h hb (storesResult_word h.configValid hv)) hpc
  | @popped dst v rest _ hb hq =>
    have hwords := h.inqWords
    rw [hq, allWords, List.all_cons, Bool.and_eq_true] at hwords
    obtain ⟨hv, hrest⟩ := hwords
    have hpopped : Inv { s with inq := rest } := inv_setInq h hrest
    exact inv_advance (inv_storeWord hpopped hb hv) hpc
  | @emitted a v hv =>
    have hword := readOperand_word h (hraw a (List.mem_singleton.mpr rfl)) hv
    have hlast : Inv { s with last := some v } := inv_setLast h (by simpa [allWords] using hword)
    exact inv_suspend (inv_advance hlast hpc) hword
  | jumped _ _ _ hb => exact inv_setPc h (Memory.inBounds_toNat hb).le
  | passed hi _ _ =>
    have hlength : i.length = 3 := by rcases hi with ⟨rfl, -⟩ | ⟨rfl, -⟩ <;> rfl
    rw [hlength] at hpc
    exact inv_advance h hpc
  | @adjusted a v _ hr =>
    have hrb : Inv { s with rb := s.rb + v } := inv_setRb h hr
    exact inv_advance hrb hpc
  | halted => exact inv_haltReturn h

/-- The raw operands of an instruction decoded from Words are Words (30_encoding.md R80, R86). -/
theorem decoded_raws_words {bits : Nat} {ws rest : List Int} {i : Instr} (hws : allWords bits ws = true)
    (hd : decode ws = .ok (i, rest)) : ∀ o ∈ i.operands, representable bits o.raw = true := by
  obtain ⟨w, hd, rfl, -, -, -⟩ := decode_eq_ok hd
  intro o ho
  refine List.all_eq_true.mp hws o.raw (List.mem_cons_of_mem _ (List.mem_append_left _ ?_))
  exact List.mem_map_of_mem ho

/-- The instruction at pc keeps the invariant: it lies inside Memory, and its raw operands are cells of it. -/
theorem exec_decoded_keeps_inv {s t : State} {i : Instr} {rest : List Int} (h : Inv s)
    (hd : decode (fetchWords s) = .ok (i, rest)) (he : exec i s = .next t) : Inv t := by
  have hinside : s.pc + i.opcode.arity < s.mem.len := Memory.decode_inside hd
  have hfetched : allWords s.config.wordBits (fetchWords s) = true :=
    Memory.wordsFrom_words (zero_one_words h.configValid).1 h.memWords s.pc 4
  refine execResult_keeps_inv h ?_ (decoded_raws_words hfetched hd) (exec_result he)
  unfold Instr.length
  omega

/-- The queue and the last output a well-typed entry point loads are Words. -/
theorem startsWith_words {bits : Nat} {op : HostOp} {n : Entry} {inputs : List Int} {last : Option Int}
    (h : StartsWith op n inputs last) (hw : op.wellTyped bits = true) :
    allWords bits inputs = true ∧ allWords bits last.toList = true := by
  cases h with
  | run => exact ⟨hw, rfl⟩
  | runSuspended => exact ⟨hw, rfl⟩
  | resume =>
    obtain ⟨hinputs, houtput⟩ := (Bool.and_eq_true _ _).mp hw
    exact ⟨hinputs, by simpa [allWords] using houtput⟩

/-- A well-typed host operation keeps the invariant. -/
theorem hostEffect_keeps_inv {s t : State} {op : HostOp} (h : Inv s) (hw : op.wellTyped s.config.wordBits = true)
    (he : HostEffect s op t) : Inv t := by
  cases he with
  | notParsed => exact inv_deliver h rfl
  | constructed hp hl =>
    exact inv_deliver
      (inv_fresh h (programMemory_wf _ _) (programMemory_holdsWords _ (parseTokens_words hp)) hl) rfl
  | constructedEmpty hl => exact inv_deliver (inv_fresh h (emptyMemory_wf _) rfl hl) rfl
  | mimicked hl =>
    obtain ⟨hwf, hwords⟩ := (Bool.and_eq_true _ _).mp hw
    exact inv_deliver (inv_replaceMemory h hwf hwords hl) rfl
  | read => exact inv_deliver h (inv_get_word h _)
  | wrote hb =>
    obtain ⟨-, hv⟩ := (Bool.and_eq_true _ _).mp hw
    exact inv_deliver (inv_storeWord h hb hv) rfl
  | outOfBounds => exact inv_raise _ h
  | emptyProgram => exact inv_raise _ h
  | started hs _ =>
    obtain ⟨hinputs, hlast⟩ := startsWith_words hs hw
    exact inv_setControl _ _ s.hostOps (inv_setLast (inv_setInq h hinputs) hlast)
  | halted => exact inv_deliver h hw

/-- Settles O34: by the four results of a step. -/
theorem stepKeepsTheInvariant : Obligations.StepKeepsTheInvariant := by
  intro s t h hstep
  cases step_result hstep with
  | notDecoded _ _ ht => rw [ht]; exact inv_raise _ h
  | executed _ hd he => exact exec_decoded_keeps_inv h hd he
  | rested _ _ ht => rw [ht]; exact h
  | @performed op rest _ _ hw he => exact hostEffect_keeps_inv (inv_setControl s.entry s.ctl rest h) hw he

end Sys2Proof.Safety
end

section
/-! What one instruction can change, component by component (10_state.md R26 to R31): each lemma names the instructions
that touch the component, and the frames follow from them. -/

namespace Sys2Proof.Machine

/-- A read looks at Memory only. -/
theorem memRead_congr {s t : State} (h : t.mem = s.mem) (c : Int) : memRead c t = memRead c s := by
  simp only [memRead, checkAddress, h]

@[simp] theorem Memory.set_inBounds (m : Memory) (a : Nat) (v c : Int) : (m.set a v).inBounds c = m.inBounds c := rfl

/-- After a store at a checked address every other address reads as before, in bounds or out. -/
theorem memRead_set_other {s t : State} {a c v : Int} (ha : s.mem.inBounds a = true) (hc : c ≠ a)
    (h : t.mem = s.mem.set a.toNat v) : memRead c t = memRead c s := by
  simp only [memRead, checkAddress, h, Memory.set_inBounds]
  split
  · have hne : c.toNat ≠ a.toNat := by
      have := Memory.inBounds_iff.mp ha
      have := Memory.inBounds_iff.mp ‹s.mem.inBounds c = true›
      omega
    simp only [andThen_ok, Memory.get_set_other _ _ hne]
  · rfl

/-- After a store at a checked address of a canonical Memory that address reads as the stored value. -/
theorem memRead_set_same {s t : State} {a v : Int} (hwf : s.mem.wf = true) (ha : s.mem.inBounds a = true)
    (h : t.mem = s.mem.set a.toNat v) : memRead a t = .ok v := by
  rw [memRead_eq_ok, h, Memory.get_set_same hwf]
  exact ⟨ha, rfl⟩

@[simp] theorem suspend_mem (v : Int) (s : State) : (suspend v s).mem = s.mem := by
  rcases suspend_cases v s with h | h <;> simp [h]

@[simp] theorem suspend_pc (v : Int) (s : State) : (suspend v s).pc = s.pc := by
  rcases suspend_cases v s with h | h <;> simp [h]

@[simp] theorem suspend_rb (v : Int) (s : State) : (suspend v s).rb = s.rb := by
  rcases suspend_cases v s with h | h <;> simp [h]

@[simp] theorem suspend_inq (v : Int) (s : State) : (suspend v s).inq = s.inq := by
  rcases suspend_cases v s with h | h <;> simp [h]

@[simp] theorem haltReturn_mem (s : State) : (haltReturn s).mem = s.mem := by
  rcases haltReturn_cases s with h | h <;> simp [h]

@[simp] theorem haltReturn_pc (s : State) : (haltReturn s).pc = s.pc := by
  rcases haltReturn_cases s with h | h <;> simp [h]

@[simp] theorem haltReturn_rb (s : State) : (haltReturn s).rb = s.rb := by
  rcases haltReturn_cases s with h | h <;> simp [h]

@[simp] theorem haltReturn_inq (s : State) : (haltReturn s).inq = s.inq := by
  rcases haltReturn_cases s with h | h <;> simp [h]

@[simp] theorem haltReturn_last (s : State) : (haltReturn s).last = s.last := by
  rcases haltReturn_cases s with h | h <;> simp [h]

/-- The write slot of an instruction (30_encoding.md R84), the only operand that names a cell to store into. -/
def destination (i : Instr) : Option Operand :=
  match i with
  | .add _ _ dst => some dst
  | .multiply _ _ dst => some dst
  | .input dst => some dst
  | .output _ => none
  | .jumpIfTrue _ _ => none
  | .jumpIfFalse _ _ => none
  | .lessThan _ _ dst => some dst
  | .equals _ _ dst => some dst
  | .adjustRelativeBase _ => none
  | .halt => none

theorem destination_of_mem_storing {a b dst : Operand} {i : Instr}
    (hi : i ∈ [Instr.add a b dst, .multiply a b dst, .lessThan a b dst, .equals a b dst, .input dst]) :
    destination i = some dst := by
  simp only [List.mem_cons, List.not_mem_nil, or_false] at hi
  rcases hi with rfl | rfl | rfl | rfl | rfl <;> rfl

theorem destination_of_mem_nonStoring {a b : Operand} {i : Instr}
    (hi : i ∈ [Instr.output a, .jumpIfTrue a b, .jumpIfFalse a b, .adjustRelativeBase a, .halt]) :
    destination i = none := by
  simp only [List.mem_cons, List.not_mem_nil, or_false] at hi
  rcases hi with rfl | rfl | rfl | rfl | rfl <;> rfl

theorem StoresResult.destination_eq {s : State} {a b dst : Operand} {x y v : Int} {i : Instr}
    (h : StoresResult s a b dst x y i v) : destination i = some dst := by
  cases h <;> rfl

theorem StoresResult.ne_halt {s : State} {a b dst : Operand} {x y v : Int} {i : Instr}
    (h : StoresResult s a b dst x y i v) : i ≠ .halt := by
  rintro rfl
  cases h

/-- Memory changes in one cell, the checked destination, or not at all (40_execution_cycle.md R125). -/
theorem exec_mem {i : Instr} {s t : State} (h : exec i s = .next t) :
    t.mem = s.mem ∨ ∃ dst v, destination i = some dst ∧ s.mem.inBounds (effectiveAddress dst s) = true ∧
      t.mem = s.mem.set (effectiveAddress dst s).toNat v := by
  cases exec_result h with
  | stored _ _ _ hb hv => exact .inr ⟨_, _, hv.destination_eq, hb, rfl⟩
  | popped _ hb _ => exact .inr ⟨_, _, rfl, hb, rfl⟩
  | emitted _ => exact .inl (suspend_mem _ _)
  | halted => exact .inl (haltReturn_mem s)
  | _ => exact .inl rfl

/-- Only AdjustRelativeBase writes the Relative Base (45_relbase.md R221). -/
theorem exec_rb {i : Instr} {s t : State} (h : exec i s = .next t) :
    t.rb = s.rb ∨ ∃ a, i = .adjustRelativeBase a := by
  cases exec_result h with
  | adjusted _ _ => exact .inr ⟨_, rfl⟩
  | emitted _ => exact .inl (suspend_rb _ _)
  | halted => exact .inl (haltReturn_rb s)
  | _ => exact .inl rfl

/-- Only Output writes the last output (42_io.md R161). -/
theorem exec_last {i : Instr} {s t : State} (h : exec i s = .next t) : t.last = s.last ∨ ∃ a, i = .output a := by
  cases exec_result h with
  | emitted _ => exact .inr ⟨_, rfl⟩
  | halted => exact .inl (haltReturn_last s)
  | _ => exact .inl rfl

/-- Only Input takes from the queue: its front, which it stores at its destination (42_io.md R160, R162). -/
theorem exec_inq {i : Instr} {s t : State} (h : exec i s = .next t) :
    t.inq = s.inq ∨ ∃ dst v, i = .input dst ∧ s.inq = v :: t.inq ∧
      s.mem.inBounds (effectiveAddress dst s) = true ∧ t.mem = s.mem.set (effectiveAddress dst s).toNat v := by
  cases exec_result h with
  | popped _ hb hq => exact .inr ⟨_, _, rfl, hq, hb, rfl⟩
  | emitted _ => exact .inl (suspend_inq _ _)
  | halted => exact .inl (haltReturn_inq s)
  | _ => exact .inl rfl

/-- The controller and the results change by an error entry, an Output's suspension or a Halt only (47_controller.md
R267). -/
theorem exec_control {i : Instr} {s t : State} (h : exec i s = .next t) :
    (t.ctl = s.ctl ∧ t.hostResults = s.hostResults) ∨ (∃ e, t = raise e s) ∨ (∃ a, i = .output a) ∨
      i = .halt := by
  cases exec_result h with
  | raised _ e => exact .inr (.inl ⟨e, rfl⟩)
  | emitted _ => exact .inr (.inr (.inl ⟨_, rfl⟩))
  | halted => exact .inr (.inr (.inr rfl))
  | _ => exact .inl ⟨rfl, rfl⟩

/-- Every address but the destination reads as before; for an instruction without one, every address. -/
theorem exec_memRead_frame {i : Instr} {s t : State} {c : Int} (h : exec i s = .next t)
    (hc : ∀ dst, destination i = some dst → c ≠ effectiveAddress dst s) : memRead c t = memRead c s := by
  rcases exec_mem h with hmem | ⟨dst, v, hdst, hb, hmem⟩
  · exact memRead_congr hmem c
  · exact memRead_set_other hb (hc dst hdst) hmem

end Sys2Proof.Machine
end

section
/-! The frames of the instructions, and how they move pc and take from the queue (10_state.md R26, R29, R30). -/

namespace Sys2Proof.Machine

open Sys2Proof.Safety

/-- Settles O24: component by component; a storing instruction is none of those that write rb, the last output or, but
for an error, the controller. -/
theorem storingInstructionsFrame : Obligations.StoringInstructionsFrame := by
  intro a b dst s t i hi h
  have hdst : destination i = some dst := destination_of_mem_storing hi
  obtain ⟨hconfig, hlen, hops, hentry⟩ := exec_fixed h
  refine ⟨fun c hc => exec_memRead_frame h ?_, hlen, ?_, ?_, hconfig, hentry, hops, ?_, ?_, ?_⟩
  · intro dst' hdst'
    rw [hdst, Option.some.injEq] at hdst'
    exact hdst' ▸ hc
  · rcases exec_rb h with hrb | ⟨_, rfl⟩
    · exact hrb
    · cases hdst
  · rcases exec_last h with hlast | ⟨_, rfl⟩
    · exact hlast
    · cases hdst
  · intro hne
    rcases exec_inq h with hinq | ⟨dst', _, rfl, _⟩
    · exact hinq
    · cases hdst; exact absurd rfl hne
  · intro _
    rcases exec_inq h with hinq | ⟨_, _, _, hinq, _⟩
    · exact .inl hinq
    · exact .inr (by rw [hinq, List.tail_cons])
  · rcases exec_control h with hctl | he | ⟨_, rfl⟩ | rfl
    · exact .inl hctl
    · exact .inr he
    · cases hdst
    · cases hdst

/-- Settles O25: component by component; an instruction without a destination stores nothing and is no Input. -/
theorem nonStoringInstructionsFrame : Obligations.NonStoringInstructionsFrame := by
  intro a b s t i hi h
  have hdst : destination i = none := destination_of_mem_nonStoring hi
  obtain ⟨hconfig, hlen, hops, hentry⟩ := exec_fixed h
  have hmem : t.mem = s.mem := by
    rcases exec_mem h with hmem | ⟨dst, _, hsome, _⟩
    · exact hmem
    · rw [hdst] at hsome; cases hsome
  refine ⟨memRead_congr hmem, hmem, ?_, hconfig, hentry, hops, ?_, ?_, ?_⟩
  · rcases exec_inq h with hinq | ⟨_, _, rfl, _⟩
    · exact hinq
    · cases hdst
  · intro hne
    rcases exec_rb h with hrb | ⟨a', rfl⟩
    · exact hrb
    · exact absurd (by simpa using hi) hne
  · intro hne
    rcases exec_last h with hlast | ⟨a', rfl⟩
    · exact hlast
    · exact absurd (by simpa using hi) hne
  · intro hout hhalt
    rcases exec_control h with hctl | he | ⟨a', rfl⟩ | rfl
    · exact .inl hctl
    · exact .inr he
    · exact absurd (by simpa using hi) hout
    · exact absurd rfl hhalt

/-- Settles O26: by the ways an instruction goes on. -/
theorem pcMovesAsListed : Obligations.PcMovesAsListed := by
  intro s t i h
  cases exec_result h with
  | raised => exact .inl ⟨rfl, .inr ⟨_, rfl⟩⟩
  | stored _ _ _ _ hv => exact .inr (.inl ⟨by rw [storesResult_length hv]; rfl, hv.ne_halt⟩)
  | popped => exact .inr (.inl ⟨rfl, nofun⟩)
  | emitted => exact .inr (.inl ⟨suspend_pc _ _, nofun⟩)
  | @jumped cond target c d _ hi _ hd hb =>
    obtain ⟨h0, hlt⟩ := Memory.inBounds_iff.mp hb
    exact .inr (.inr ⟨cond, target, d, hi.imp And.left And.left, hd, h0, hlt, Int.toNat_of_nonneg h0⟩)
  | passed hi _ _ => rcases hi with ⟨rfl, -⟩ | ⟨rfl, -⟩ <;> exact .inr (.inl ⟨rfl, nofun⟩)
  | adjusted => exact .inr (.inl ⟨rfl, nofun⟩)
  | halted => exact .inl ⟨haltReturn_pc s, .inl rfl⟩

/-- Settles O28: the popped front is what the destination then reads. -/
theorem queueIsConsumedFromTheFront : Obligations.QueueIsConsumedFromTheFront := by
  intro s t i hwf h
  rcases exec_inq h with hinq | ⟨dst, v, hi, hinq, hb, hmem⟩
  · exact .inl hinq
  · exact .inr ⟨dst, v, hi, hinq, memRead_set_same hwf hb hmem⟩

end Sys2Proof.Machine
end

section
/-! Devices side by side (10_state.md R36, 60_exceptions.md R311): what happens to one of them leaves the others
alone. -/

namespace Sys2Proof.Machine

/-- A call or a mimic of device `k` puts a new state in its place. -/
theorem systemCall_sets {k : Nat} {op : HostOp} {sys sys' : System} (h : systemCall k op sys = .next sys') :
    ∃ t, sys' = sys.set k t := by
  obtain ⟨_, _, t, _, _, _, ht⟩ := systemCall_eq_next.mp h
  exact ⟨t, ht⟩

theorem systemMimic_sets {k j : Nat} {sys sys' : System} (h : systemMimic k j sys = .next sys') :
    ∃ t, sys' = sys.set k t := by
  obtain ⟨_, _, _, hcall⟩ := systemMimic_eq_next.mp h
  exact systemCall_sets hcall

/-- A step of a handle that names no device changes nothing, and neither does setting one there. -/
theorem systemStep_sets {k : Nat} {sys sys' : System} (h : systemStep k sys = .next sys') :
    ∃ t, sys' = sys.set k t := by
  cases hk : sys[k]? with
  | none =>
    simp only [systemStep, hk, Host.Outcome.next.injEq] at h
    refine ⟨State.reset, ?_⟩
    rw [List.set_eq_of_length_le (List.getElem?_eq_none_iff.mp hk), h]
  | some s =>
    obtain ⟨_, t, _, ht⟩ := (systemStep_eq_next hk).mp h
    exact ⟨t, ht⟩

/-- Settles O41: each of the three puts a new state in the place of device `k`. -/
theorem devicesShareNoState : Obligations.DevicesShareNoState := by
  intro sys sys' k h
  have hset : ∃ t, sys' = sys.set k t := by
    rcases h with hstep | ⟨op, hcall⟩ | ⟨j, hmimic⟩
    · exact systemStep_sets hstep
    · exact systemCall_sets hcall
    · exact systemMimic_sets hmimic
  obtain ⟨t, rfl⟩ := hset
  exact ⟨List.length_set, fun m hm => List.getElem?_set_ne hm.symm⟩

end Sys2Proof.Machine
end

section
/-! Reading and fetching what was written (20_memory.md R51, R52, R60, R64): a store at a checked address is read back,
and is fetched where it lies among the four Words from pc on, whether an instruction or the host made it. -/

namespace Sys2Proof.Machine

open Sys2Proof.Safety

theorem storeWord_wf {s : State} {a : Int} (v : Int) (hwf : s.mem.wf = true) (hb : s.mem.inBounds a = true) :
    (storeWord a v s).mem.wf = true :=
  Memory.wf_set v (Memory.inBounds_toNat hb) hwf

/-- Settles O13: the write in bounds is `storeWord`, the one out of bounds its raise. -/
theorem memWriteChangesOneCell : Obligations.MemWriteChangesOneCell := by
  intro a v s hwf
  refine ⟨fun hb => ⟨storeWord a v s, memWrite_eq_ok.mpr ⟨hb, rfl⟩, ?_, ?_, rfl, rfl, storeWord_wf v hwf hb⟩,
    fun hb => memWrite_eq_error.mpr ⟨hb, rfl⟩⟩
  · exact memRead_set_same hwf hb rfl
  · exact fun _ hne => memRead_set_other hb hne rfl

/-- The fetch reads Memory itself: a store into one of the four Words from pc on is seen (R64). -/
theorem fetchWords_set {m : Memory} {t : State} {a v : Int} {k : Nat} (hwf : m.wf = true)
    (hb : m.inBounds a = true) (hmem : t.mem = m.set a.toNat v) (ha : a = (t.pc : Int) + k) (hk : k < 4) :
    (fetchWords t)[k]? = some v := by
  have hcell : a.toNat = t.pc + k := by omega
  have hin : t.pc + k < t.mem.len := by
    rw [hmem, Memory.set_len, ← hcell]
    exact Memory.inBounds_toNat hb
  rw [fetchWords, Memory.wordsFrom_get? _ _ _ _ hk hin, ← hcell, hmem, Memory.get_set_same hwf]

/-- A storing instruction that returns no error stores one Word at its checked destination and moves pc behind itself;
the Word is the front of the queue or the result of its two operands (40_execution_cycle.md R125). -/
theorem exec_stores {i : Instr} {dst : Operand} {s t : State} (h : exec i s = .next t)
    (hdst : destination i = some dst) (hne : ¬ ReturnsError s t) :
    ∃ v, s.mem.inBounds (effectiveAddress dst s) = true ∧ t.mem = s.mem.set (effectiveAddress dst s).toNat v ∧
      t.pc = s.pc + i.length ∧ (i = .input dst ∧ s.inq.head? = some v ∨
        ∃ a b x y, readOperand a s = .ok x ∧ readOperand b s = .ok y ∧ StoresResult s a b dst x y i v) := by
  cases exec_result h with
  | raised => exact absurd ⟨_, rfl⟩ hne
  | stored _ hx hy hb hv =>
    rw [hv.destination_eq, Option.some.injEq] at hdst
    subst hdst
    exact ⟨_, hb, rfl, by rw [storesResult_length hv]; rfl, .inr ⟨_, _, _, _, hx, hy, hv⟩⟩
  | popped _ hb hq =>
    cases hdst
    exact ⟨_, hb, rfl, rfl, .inl ⟨rfl, by rw [hq, List.head?_cons]⟩⟩
  | jumped hi _ _ _ => rcases hi with ⟨rfl, -⟩ | ⟨rfl, -⟩ <;> cases hdst
  | passed hi _ _ => rcases hi with ⟨rfl, -⟩ | ⟨rfl, -⟩ <;> cases hdst
  | emitted => cases hdst
  | adjusted => cases hdst
  | halted => cases hdst

theorem lessThanWord_eq (x y : Int) : lessThanWord x y = if x < y then 1 else 0 := by
  simp [lessThanWord, truthWord]

theorem equalsWord_eq (x y : Int) : equalsWord x y = if x = y then 1 else 0 := by
  simp [equalsWord, truthWord]

/-- The operands and the result of a storing F3 instruction known by its operands (R140, R141, R200, R201). -/
theorem StoresResult.value {s : State} {a b a' b' dst : Operand} {x y v : Int} {i : Instr}
    (h : StoresResult s a' b' dst x y i v)
    (hi : i ∈ [Instr.add a b dst, .multiply a b dst, .lessThan a b dst, .equals a b dst, .input dst]) :
    a' = a ∧ b' = b ∧ (i = .add a b dst ∧ v = x + y ∨ i = .multiply a b dst ∧ v = x * y ∨
      i = .lessThan a b dst ∧ v = (if x < y then 1 else 0) ∨
      i = .equals a b dst ∧ v = (if x = y then 1 else 0)) := by
  obtain ⟨rfl, rfl⟩ : a' = a ∧ b' = b := by cases h <;> simpa using hi
  refine ⟨rfl, rfl, ?_⟩
  cases h with
  | add _ => exact .inl ⟨rfl, rfl⟩
  | multiply _ => exact .inr (.inl ⟨rfl, rfl⟩)
  | lessThan => exact .inr (.inr (.inl ⟨rfl, lessThanWord_eq x y⟩))
  | equals => exact .inr (.inr (.inr ⟨rfl, equalsWord_eq x y⟩))

/-- The host's write in bounds (47_controller.md R270). -/
theorem hostPerform_write {a v : Int} {s : State} (hb : s.mem.inBounds a = true) :
    hostPerform (.write a v) s = .next (deliver .nothing (storeWord a v s)) := by
  simp only [hostPerform, hostWrite, memWrite_eq_ok.mpr ⟨hb, rfl⟩, andThen_ok, finish_ok]

/-- Settles O32: either way the state whose pc is fetched from holds the store. -/
theorem writtenWordIsFetchedNext : Obligations.WrittenWordIsFetchedNext := by
  constructor
  · intro a b dst s t i k hwf hi hk haddr h hne
    obtain ⟨v, hb, hmem, hpc, hv⟩ := exec_stores h (destination_of_mem_storing hi) hne
    refine ⟨v, fetchWords_set hwf hb hmem (by rw [haddr, hpc, Nat.cast_add]) hk, hv.imp_right ?_⟩
    rintro ⟨a', b', x, y, hx, hy, hres⟩
    obtain ⟨rfl, rfl, hvalue⟩ := hres.value hi
    exact ⟨x, y, hx, hy, hvalue⟩
  · intro s v k rest hwf hc hk ho haddr hv hlen
    have hb : s.mem.inBounds ((s.pc : Int) + k) = true := Memory.inBounds_iff.mpr ⟨by omega, by omega⟩
    have hw : (HostOp.write ((s.pc : Int) + k) v).wellTyped s.config.wordBits = true :=
      Bool.and_eq_true_iff.mpr ⟨haddr, hv⟩
    refine ⟨_, (step_host hc ho hw).trans (hostPerform_write hb), rfl, ?_⟩
    exact fetchWords_set hwf hb rfl rfl hk

end Sys2Proof.Machine
end

section
/-! The instruction word, both ways (30_encoding.md R90, R93, R94): a word decodes to a header exactly if it is the one
word R94 gives that header, so decoding and encoding undo each other. -/

namespace Sys2Proof

theorem Mode.digit_eq_zero {m : Mode} : m.digit = 0 ↔ m = .position := by cases m <;> simp [Mode.digit]

theorem Opcode.number_lt_hundred (op : Opcode) : op.number < 100 := by cases op <;> simp [Opcode.number]

/-- R94's word of a header. -/
def Header.word (h : Header) : Nat :=
  h.op.number + 100 * h.mode1.digit + 1000 * h.mode2.digit + 10000 * h.mode3.digit

/-- The slots an opcode does not have stand as Position, the digit 0 they must hold (R81, R90). -/
structure Header.AbsentSlotsZero (h : Header) : Prop where
  slot1 : h.op.arity < 1 → h.mode1 = .position
  slot2 : h.op.arity < 2 → h.mode2 = .position
  slot3 : h.op.arity < 3 → h.mode3 = .position

/-- The words that decode, by their headers: the decimal digits of a word are those of R94's sum. -/
theorem decodeWord_eq_ok_iff_word {w : Int} {h : Header} :
    decodeWord w = .ok h ↔ h.AbsentSlotsZero ∧ w = (h.word : Int) := by
  obtain ⟨op, m1, m2, m3⟩ := h
  have habsent : Header.AbsentSlotsZero ⟨op, m1, m2, m3⟩ ↔ (op.arity < 1 → m1.digit = 0) ∧
      (op.arity < 2 → m2.digit = 0) ∧ (op.arity < 3 → m3.digit = 0) := by
    simp only [Mode.digit_eq_zero]
    exact ⟨fun ⟨h1, h2, h3⟩ => ⟨h1, h2, h3⟩, fun ⟨h1, h2, h3⟩ => ⟨h1, h2, h3⟩⟩
  have hnumber := op.number_lt_hundred
  have hd1 := m1.digit_le_two
  have hd2 := m2.digit_le_two
  have hd3 := m3.digit_le_two
  have harity := op.arity_le_three
  rw [habsent, decodeWord_eq_ok]
  simp only [slotMode_eq_some, ← Mode.digit_eq_zero, Header.word]
  generalize op.arity = arity at *
  interval_cases arity <;> norm_num <;> omega

/-- The mode of slot `k + 1` of a list of operands; Position for an absent slot. -/
def modeAt (os : List Operand) (k : Nat) : Mode := ((os[k]?).map Operand.mode).getD .position

theorem digit_modeAt (os : List Operand) (k : Nat) :
    (modeAt os k).digit = ((os[k]?).map fun o => o.mode.digit).getD 0 := by
  unfold modeAt
  cases os[k]? <;> rfl

theorem modeAt_absent {os : List Operand} {k : Nat} (h : os.length ≤ k) : modeAt os k = .position := by
  simp [modeAt, List.getElem?_eq_none h]

/-- The header an instruction is encoded with. -/
def Instr.header (i : Instr) : Header :=
  ⟨i.opcode, modeAt i.operands 0, modeAt i.operands 1, modeAt i.operands 2⟩

theorem Instr.header_absentSlotsZero (i : Instr) : i.header.AbsentSlotsZero where
  slot1 h := modeAt_absent (by rw [i.operands_length]; exact Nat.le_of_lt_succ h)
  slot2 h := modeAt_absent (by rw [i.operands_length]; exact Nat.le_of_lt_succ h)
  slot3 h := modeAt_absent (by rw [i.operands_length]; exact Nat.le_of_lt_succ h)

theorem modeSum_eq {os : List Operand} (h : os.length ≤ 3) :
    modeSum 100 os = 100 * (modeAt os 0).digit + 1000 * (modeAt os 1).digit + 10000 * (modeAt os 2).digit := by
  match os with
  | [] => rfl
  | [_] => rfl
  | [_, _] => rfl
  | [_, _, _] => simp [modeSum, modeAt, Nat.add_assoc]
  | _ :: _ :: _ :: _ :: _ => simp only [List.length_cons] at h; omega

theorem encode_eq_header_word (i : Instr) : encode i = (i.header.word : Int) :: i.operands.map Operand.raw := by
  rw [encode, modeSum_eq (i.operands_length.trans_le i.opcode.arity_le_three)]
  simp only [Header.word, Instr.header, Nat.add_assoc]

theorem decodeOperands_header (i : Instr) (rest : List Int) :
    decodeOperands i.header (i.operands.map Operand.raw ++ rest) = .ok (i, rest) := by
  cases i <;> rfl

/-- A header with an instruction's opcode and the modes of its slots is the instruction's own. -/
theorem Header.eq_instr_header {h : Header} {i : Instr} (habsent : h.AbsentSlotsZero) (hop : h.op = i.opcode)
    (hmodes : i.operands.map Operand.mode = [h.mode1, h.mode2, h.mode3].take h.op.arity) : h = i.header := by
  obtain ⟨h1, h2, h3⟩ := habsent
  have hslot : ∀ k, modeAt i.operands k =
      if k < h.op.arity then ([h.mode1, h.mode2, h.mode3][k]?).getD .position else .position := by
    intro k
    rw [modeAt, ← List.getElem?_map, hmodes, List.getElem?_take]
    split <;> rfl
  have hslot1 : modeAt i.operands 0 = h.mode1 := by rw [hslot]; split; exacts [rfl, (h1 (by omega)).symm]
  have hslot2 : modeAt i.operands 1 = h.mode2 := by rw [hslot]; split; exacts [rfl, (h2 (by omega)).symm]
  have hslot3 : modeAt i.operands 2 = h.mode3 := by rw [hslot]; split; exacts [rfl, (h3 (by omega)).symm]
  rw [Instr.header, hslot1, hslot2, hslot3, ← hop]

/-- Settles O2: the header's word decodes to the header, and the header takes the raw operands back. -/
theorem decodeUndoesEncode : Obligations.DecodeUndoesEncode := by
  intro i rest
  have hword : decodeWord i.header.word = .ok i.header :=
    decodeWord_eq_ok_iff_word.mpr ⟨i.header_absentSlotsZero, rfl⟩
  rw [encode_eq_header_word, List.cons_append, decode, hword]
  exact decodeOperands_header i rest

/-- Settles O3: the header read from the word is the instruction's, and no other word gives it. -/
theorem encodeUndoesDecode : Obligations.EncodeUndoesDecode := by
  intro ws rest i h
  obtain ⟨w, hd, rfl, hword, hop, hmodes⟩ := decode_eq_ok h
  obtain ⟨habsent, rfl⟩ := decodeWord_eq_ok_iff_word.mp hword
  rw [encode_eq_header_word, ← Header.eq_instr_header habsent hop hmodes, List.cons_append]

/-- Settles O4: the word of a header is the only one that decodes to it, and the one of `encode`. -/
theorem oneWordPerOpcodeAndModes : Obligations.OneWordPerOpcodeAndModes := by
  refine ⟨fun op m1 m2 m3 h1 h2 h3 => ?_, fun w w' h hw hw' => ?_, fun i slot hslot => ?_⟩
  · exact decodeWord_eq_ok_iff_word.mpr ⟨⟨h1, h2, h3⟩, rfl⟩
  · obtain ⟨-, rfl⟩ := decodeWord_eq_ok_iff_word.mp hw
    obtain ⟨-, rfl⟩ := decodeWord_eq_ok_iff_word.mp hw'
    rfl
  · simp only [encode_eq_header_word, Header.word, Instr.header, digit_modeAt, hslot]

/-- Settles O1: by decoding the twelve lists of Words. -/
theorem writtenOutWordsDecode : Obligations.WrittenOutWordsDecode :=
  ⟨rfl, rfl, rfl, rfl, rfl, rfl, rfl, rfl, rfl, rfl, rfl, rfl⟩

end Sys2Proof
end

section
/-! What the decoder makes of a list of Words: raw operands that are Words, and a write slot that may still be Immediate
(30_encoding.md R86, R91). -/

namespace Sys2Proof

/-- The write slot that the opcode table names (R84) is the operand stored into. -/
theorem Machine.destination_eq_writeSlot (i : Instr) :
    Machine.destination i = i.opcode.writeSlot.bind fun k => i.operands[k - 1]? := by
  cases i <;> rfl

theorem Instr.writeSlotLegal_iff_destination (i : Instr) :
    i.writeSlotLegal = true ↔ ∀ o, Machine.destination i = some o → o.mode ≠ .immediate := by
  cases i <;> simp [Instr.writeSlotLegal, Machine.destination]

/-- Settles O55: the raw operands are among the Words decoded, and the write slot is the destination. -/
theorem decodedRawsAreWords : Obligations.DecodedRawsAreWords := by
  intro bits ws rest i hws hd
  have hraws := Safety.decoded_raws_words hws hd
  have hall : i.rawsAreWords bits = true := List.all_eq_true.mpr hraws
  refine ⟨hall, hraws, by rw [Instr.wellFormed, hall, Bool.and_true], ?_⟩
  rw [Instr.writeSlotLegal_iff_destination, Machine.destination_eq_writeSlot]
  simp only [Option.bind_eq_some_iff]
  exact ⟨fun h k o hk ho => h o ⟨k, hk, ho⟩, fun h o ⟨k, hk, ho⟩ => h k o hk ho⟩

end Sys2Proof
end

section
/-! Words that do not decode (30_encoding.md R82, R88 to R90), and what the step makes of them. -/

namespace Sys2Proof

theorem Opcode.number_mem (op : Opcode) : (op.number : Int) ∈ [1, 2, 3, 4, 5, 6, 7, 8, 9, 99] := by
  cases op <;> decide

/-- A negative word has no opcode. -/
theorem decodeWord_of_neg {w : Int} (h : w < 0) : decodeWord w = .error .unknownOpcode := by
  rw [decodeWord, if_pos h]

/-- A word without one of the ten opcodes, whatever its sign. -/
theorem decodeWord_of_unknownOpcode {w : Int} (h : ∀ op : Opcode, w % 100 ≠ op.number) :
    decodeWord w = .error .unknownOpcode := by
  by_cases hneg : w < 0
  · exact decodeWord_of_neg hneg
  · have hnone : Opcode.ofNumber (w.toNat % 100) = none := by
      refine Option.eq_none_iff_forall_ne_some.mpr fun op hop => h op ?_
      have := Opcode.ofNumber_eq_some.mp hop
      omega
    simp only [decodeWord, if_neg hneg, hnone]

/-- A non-negative word with one of the ten opcodes decodes to a header of that opcode, or fails by its digits. -/
theorem decodeWord_of_opcode {w : Int} {op : Opcode} (h0 : 0 ≤ w) (hop : w % 100 = op.number) :
    (∃ h, h.op = op ∧ decodeWord w = .ok h) ∨ decodeWord w = .error .unsupportedParameterMode := by
  have hnumber : Opcode.ofNumber (w.toNat % 100) = some op := Opcode.ofNumber_eq_some.mpr (by omega)
  simp only [decodeWord, if_neg (show ¬ w < 0 by omega), hnumber]
  split
  · split
    · exact .inl ⟨_, rfl, rfl⟩
    · exact .inr rfl
  · exact .inr rfl

/-- Every slot of a decoded word has one of the three mode digits. -/
theorem decodeWord_digit_mem {w : Int} {k : Nat} {h : Header} (hd : decodeWord w = .ok h) (h1 : 1 ≤ k)
    (hk : k ≤ h.op.arity) : w / 10 ^ (k + 1) % 10 ∈ [0, 1, 2] := by
  obtain ⟨h0, -, hs1, hs2, hs3, -⟩ := decodeWord_eq_ok.mp hd
  obtain ⟨m, hm⟩ : ∃ m, slotMode w.toNat h.op.arity k = some m := by
    have := h.op.arity_le_three
    obtain rfl | rfl | rfl : k = 1 ∨ k = 2 ∨ k = 3 := by omega
    · exact ⟨_, hs1⟩
    · exact ⟨_, hs2⟩
    · exact ⟨_, hs3⟩
  have hdigit : w / 10 ^ (k + 1) % 10 = (m.digit : Int) := by
    rw [← Int.toNat_of_nonneg h0]
    exact_mod_cast (slotMode_eq_some.mp hm).1 hk
  rw [hdigit]
  cases m <;> decide

end Sys2Proof

namespace Sys2Proof.Machine

theorem fetchWords_eq_cons {s : State} (h : s.pc < s.mem.len) :
    fetchWords s = s.mem.get s.pc :: s.mem.wordsFrom (s.pc + 1) 3 := by
  rw [fetchWords, Memory.wordsFrom, if_pos h]

/-- A word at pc that does not decode raises its error (40_execution_cycle.md R122, R124). -/
theorem step_of_decodeWord_error {s : State} {e : DecodeError} (hc : s.ctl = .exec) (hpc : s.pc < s.mem.len)
    (he : decodeWord (s.mem.get s.pc) = .error e) : step s = .next (raise (decodeRaise e s) s) := by
  simp only [step, hc, instrStep, fetchWords_eq_cons hpc, decode, he]

/-- Settles O5: such a word has no opcode, or would decode to a mode whose digit is above 2. -/
theorem illegalOpcodesAndModesRaise : Obligations.IllegalOpcodesAndModesRaise := by
  refine fun s hc hpc => ⟨fun hop => ?_, fun op h0 hop k h1 hk hdigit => ?_⟩
  · refine step_of_decodeWord_error hc hpc (decodeWord_of_unknownOpcode fun op heq => hop ?_)
    exact heq ▸ op.number_mem
  · obtain ⟨h, rfl, hd⟩ | he := decodeWord_of_opcode h0 hop
    · exact absurd (decodeWord_digit_mem hd h1 hk) hdigit
    · exact step_of_decodeWord_error hc hpc he

/-- Settles O6: a decoded word is not negative and ends with its mode digits. -/
theorem negativeAndOverlongWordsRaise : Obligations.NegativeAndOverlongWordsRaise := by
  refine fun s hc hpc => ⟨fun hneg => step_of_decodeWord_error hc hpc (decodeWord_of_neg hneg),
    fun op h0 hop hlong => ?_⟩
  obtain ⟨h, rfl, hd⟩ | he := decodeWord_of_opcode h0 hop
  · obtain ⟨-, -, -, -, -, hz⟩ := decodeWord_eq_ok.mp hd
    refine absurd ?_ hlong
    rw [← Int.toNat_of_nonneg h0]
    exact_mod_cast hz
  · exact step_of_decodeWord_error hc hpc he

end Sys2Proof.Machine
end

section
/-! A placed opcode-table word is what the next fetch reads (log 3, log 4). -/

namespace Sys2Proof.Machine

@[simp] theorem Memory.loadAt_len (m : Memory) (a : Nat) (ws : List Int) :
    (m.loadAt a ws).len = max m.len (a + ws.length) := by
  rw [Memory.loadAt, Memory.setFrom_len]

/-- The Words placed at an index are read back from there. -/
theorem Memory.wordsFrom_loadAt {m : Memory} (a : Nat) (ws : List Int) (h : m.wf = true) :
    (m.loadAt a ws).wordsFrom a ws.length = ws := by
  refine List.ext_getElem? fun k => ?_
  have hlength : ((m.loadAt a ws).wordsFrom a ws.length).length = ws.length := by
    rw [Memory.wordsFrom_length, Memory.loadAt_len]; omega
  by_cases hk : k < ws.length
  · rw [Memory.wordsFrom_get? _ _ _ _ hk (by rw [Memory.loadAt_len]; omega), List.getElem?_eq_getElem hk]
    congr 1
    exact Memory.get_setFrom (cellsWf_mono m.cells le_rfl (Nat.le_max_left _ _) h) (Nat.le_max_right _ _)
      (List.getElem?_eq_getElem hk)
  · rw [List.getElem?_eq_none (by omega), List.getElem?_eq_none (by omega)]

theorem fetchWords_withFetchWord {s : State} (nbits w : Nat) (h : s.mem.wf = true) :
    fetchWords (s.withFetchWord nbits w) = tableWords nbits w :=
  Memory.wordsFrom_loadAt s.pc (tableWords nbits w) h

/-- What the decoder reads from a table word is the first part of what it makes of the four Words. -/
theorem decodeTableWord_eq_some {nbits w : Nat} {i : Instr} :
    decodeTableWord nbits w = some i ↔ ∃ rest, decode (tableWords nbits w) = .ok (i, rest) := by
  unfold decodeTableWord
  split <;> simp_all

/-- The decoded instruction is executed (40_execution_cycle.md R127, R128). -/
theorem step_of_decode {s : State} {i : Instr} {rest : List Int} (hc : s.ctl = .exec)
    (hd : decode (fetchWords s) = .ok (i, rest)) : step s = exec i s := by
  simp only [step, hc, instrStep, hd]

/-- Settles O54: the placed Words are the ones fetched. -/
theorem placedTableWordRuns : Obligations.PlacedTableWordRuns := by
  intro s nbits w i hwf hi
  obtain ⟨rest, hd⟩ := decodeTableWord_eq_some.mp hi
  exact step_of_decode rfl (by rw [fetchWords_withFetchWord nbits w hwf, hd])

end Sys2Proof.Machine
end

section
/-! The header and the operands of the instruction at pc: which words decode, by their digits, and what an operand slot
holds (30_encoding.md R81 to R90, 40_execution_cycle.md R113, R115). -/

namespace Sys2Proof

/-- A number of the opcode set is one of the ten opcodes' (R84). -/
theorem Opcode.exists_number_eq {n : Int} (h : n ∈ [1, 2, 3, 4, 5, 6, 7, 8, 9, 99]) :
    ∃ op : Opcode, n = op.number := by
  simp only [List.mem_cons, List.not_mem_nil, or_false] at h
  rcases h with rfl | rfl | rfl | rfl | rfl | rfl | rfl | rfl | rfl | rfl
  exacts [⟨.add, rfl⟩, ⟨.multiply, rfl⟩, ⟨.input, rfl⟩, ⟨.output, rfl⟩, ⟨.jumpIfTrue, rfl⟩, ⟨.jumpIfFalse, rfl⟩,
    ⟨.lessThan, rfl⟩, ⟨.equals, rfl⟩, ⟨.adjustRelativeBase, rfl⟩, ⟨.halt, rfl⟩]

theorem Mode.exists_digit_eq {d : Int} (h : d ∈ [0, 1, 2]) : ∃ m : Mode, d = m.digit := by
  simp only [List.mem_cons, List.not_mem_nil, or_false] at h
  rcases h with rfl | rfl | rfl
  exacts [⟨.position, rfl⟩, ⟨.immediate, rfl⟩, ⟨.relative, rfl⟩]

/-- A slot whose digit, if it has one, names a mode. -/
theorem exists_slotMode {n arity k : Nat} (h : k ≤ arity → (n : Int) / 10 ^ (k + 1) % 10 ∈ [0, 1, 2]) :
    ∃ m, slotMode n arity k = some m := by
  by_cases hk : k ≤ arity
  · obtain ⟨m, hm⟩ := Mode.exists_digit_eq (h hk)
    exact ⟨m, slotMode_eq_some.mpr ⟨fun _ => by exact_mod_cast hm, fun _ => by omega⟩⟩
  · exact ⟨.position, slotMode_eq_some.mpr ⟨fun _ => by omega, fun _ => rfl⟩⟩

/-- A word with one of the ten opcodes, mode digits that name modes and no digit above them decodes. -/
theorem decodeWord_of_digits {w : Int} {op : Opcode} (h0 : 0 ≤ w) (hop : w % 100 = op.number)
    (hmodes : ∀ k ∈ [1, 2, 3], k ≤ op.arity → w / 10 ^ (k + 1) % 10 ∈ [0, 1, 2])
    (hlong : w / 10 ^ (op.arity + 2) = 0) : ∃ h, h.op = op ∧ decodeWord w = .ok h := by
  obtain ⟨n, rfl⟩ := Int.eq_ofNat_of_zero_le h0
  obtain ⟨m1, h1⟩ := exists_slotMode (hmodes 1 (by decide))
  obtain ⟨m2, h2⟩ := exists_slotMode (hmodes 2 (by decide))
  obtain ⟨m3, h3⟩ := exists_slotMode (hmodes 3 (by decide))
  exact ⟨⟨op, m1, m2, m3⟩, rfl, decodeWord_eq_ok.mpr ⟨h0, by exact_mod_cast hop, h1, h2, h3, by exact_mod_cast hlong⟩⟩

/-- The mode of each slot of a decoded word is the one its digit names (R81, R83). -/
theorem decodeWord_slot_digit {w : Int} {h : Header} {k : Nat} {m : Mode} (hd : decodeWord w = .ok h)
    (hm : ([h.mode1, h.mode2, h.mode3].take h.op.arity)[k]? = some m) : w / 10 ^ (k + 2) % 10 = m.digit := by
  obtain ⟨h0, -, h1, h2, h3, -⟩ := decodeWord_eq_ok.mp hd
  rw [List.getElem?_take] at hm
  split at hm
  case isFalse => cases hm
  case isTrue hk =>
    have hslot : slotMode w.toNat h.op.arity (k + 1) = some m := by
      match k, hm with
      | 0, hm => rw [← hm]; exact h1
      | 1, hm => rw [← hm]; exact h2
      | 2, hm => rw [← hm]; exact h3
    rw [← Int.toNat_of_nonneg h0]
    exact_mod_cast (slotMode_eq_some.mp hslot).1 hk

theorem slots1_cases (mk : Operand → Instr) (h : Header) (raws : List Int) :
    raws.length < 1 ∧ slots1 mk h raws = .error .missingOperand ∨ 1 ≤ raws.length ∧ ∃ p, slots1 mk h raws = .ok p :=
  match raws with
  | [] => .inl ⟨by simp, rfl⟩
  | _ :: _ => .inr ⟨by simp, _, rfl⟩

theorem slots2_cases (mk : Operand → Operand → Instr) (h : Header) (raws : List Int) :
    raws.length < 2 ∧ slots2 mk h raws = .error .missingOperand ∨ 2 ≤ raws.length ∧ ∃ p, slots2 mk h raws = .ok p :=
  match raws with
  | [] => .inl ⟨by simp, rfl⟩
  | [_] => .inl ⟨by simp, rfl⟩
  | _ :: _ :: _ => .inr ⟨by simp, _, rfl⟩

theorem slots3_cases (mk : Operand → Operand → Operand → Instr) (h : Header) (raws : List Int) :
    raws.length < 3 ∧ slots3 mk h raws = .error .missingOperand ∨ 3 ≤ raws.length ∧ ∃ p, slots3 mk h raws = .ok p :=
  match raws with
  | [] => .inl ⟨by simp, rfl⟩
  | [_] => .inl ⟨by simp, rfl⟩
  | [_, _] => .inl ⟨by simp, rfl⟩
  | _ :: _ :: _ :: _ => .inr ⟨by simp, _, rfl⟩

/-- Whether the operands are present is a matter of the number of Words alone (40_execution_cycle.md R113). -/
theorem decodeOperands_cases (h : Header) (raws : List Int) :
    raws.length < h.op.arity ∧ decodeOperands h raws = .error .missingOperand ∨
      h.op.arity ≤ raws.length ∧ ∃ p, decodeOperands h raws = .ok p := by
  obtain ⟨op, m1, m2, m3⟩ := h
  cases op with
  | add | multiply | lessThan | equals => exact slots3_cases _ _ raws
  | jumpIfTrue | jumpIfFalse => exact slots2_cases _ _ raws
  | input | output | adjustRelativeBase => exact slots1_cases _ _ raws
  | halt => exact .inr ⟨Nat.zero_le _, _, rfl⟩

end Sys2Proof

namespace Sys2Proof.Machine

/-- Settles O7: the list of fetched Words is empty at the end of Memory, and begins with the word at pc before it. -/
theorem fetchIsBoundsChecked : Obligations.FetchIsBoundsChecked := by
  refine fun s => ⟨fun hc hpc => ?_, fun hpc => ?_⟩
  · have hempty : fetchWords s = [] := by rw [fetchWords, Memory.wordsFrom, if_neg (by omega)]
    simp only [step, hc, instrStep, hempty, decode, decodeRaise]
  · rw [fetchWords_eq_cons hpc, List.head?_cons]

/-- Settles O9: by the dispatch (40_execution_cycle.md R127). -/
theorem stepRunsTheDecodedInstruction : Obligations.StepRunsTheDecodedInstruction :=
  fun _ _ _ hc hd => step_of_decode hc hd

/-- The raw operands of an instruction decoded from Memory are the cells behind its word (R80, R115). -/
theorem Memory.decoded_raws {m : Memory} {a : Nat} {i : Instr} {rest : List Int}
    (hd : decode (m.wordsFrom a 4) = .ok (i, rest)) :
    i.operands.map Operand.raw = (List.range i.opcode.arity).map fun k => m.get (a + 1 + k) := by
  have hinside := Memory.decode_inside hd
  obtain ⟨w, h, hws, -, -, -⟩ := decode_eq_ok hd
  have hlength : (i.operands.map Operand.raw).length = i.opcode.arity := by rw [List.length_map, i.operands_length]
  refine List.ext_getElem (by rw [hlength, List.length_map, List.length_range]) fun k hk _ => ?_
  rw [hlength] at hk
  have harity := i.opcode.arity_le_three
  have hcell : (m.wordsFrom a 4)[k + 1]? = some (m.get (a + (k + 1))) :=
    Memory.wordsFrom_get? m a 4 (k + 1) (by omega) (by omega)
  rw [hws, List.getElem?_cons_succ, List.getElem?_append_left (by rw [hlength]; exact hk),
    List.getElem?_eq_getElem (by rw [hlength]; exact hk), Option.some.injEq] at hcell
  rw [hcell, List.getElem_map, List.getElem_range]
  congr 1
  omega

/-- Settles O8: the fetch ends at the end of Memory, so the number of Words behind the instruction word decides. -/
theorem operandPresence : Obligations.OperandPresence := by
  intro s h hc hpc hword
  have hdecode : decode (fetchWords s) = decodeOperands h (s.mem.wordsFrom (s.pc + 1) 3) := by
    rw [fetchWords_eq_cons hpc, decode, hword]
  have hlength := s.mem.wordsFrom_length (s.pc + 1) 3
  have harity := h.op.arity_le_three
  rcases decodeOperands_cases h (s.mem.wordsFrom (s.pc + 1) 3) with ⟨hl, herr⟩ | ⟨hl, ⟨i, rest⟩, hok⟩
  · refine ⟨fun _ => ?_, fun _ => by omega⟩
    simp only [step, hc, instrStep, hdecode, herr, decodeRaise]
  · refine ⟨fun _ => by omega, fun _ => ?_⟩
    rw [hok] at hdecode
    obtain ⟨w, h', hws, hword', hop, hmodes⟩ := decode_eq_ok hdecode
    rw [fetchWords_eq_cons hpc, List.cons.injEq] at hws
    obtain rfl : h = h' := by rw [← hws.1, hword] at hword'; exact Except.ok.inj hword'
    refine ⟨i, step_of_decode hc hdecode, hop.symm, hmodes, ?_⟩
    rw [hop]
    exact Memory.decoded_raws hdecode

/-- Settles O10: what is fetched begins with the placed encoding, and that decodes to the instruction. -/
theorem stepRunsThePlacedInstruction : Obligations.StepRunsThePlacedInstruction := by
  intro s i hc hplaced
  have hlength : (encode i).length ≤ 4 := by
    have := i.opcode.arity_le_three
    rw [encode, List.length_cons, List.length_map, i.operands_length]
    omega
  have hprefix : encode i <+: fetchWords s := by
    refine List.prefix_iff_getElem?.mpr fun k hk => ?_
    obtain ⟨hin, hget⟩ := hplaced k _ (List.getElem?_eq_getElem hk)
    rw [fetchWords, Memory.wordsFrom_get? _ _ _ _ (by omega) hin, hget]
  obtain ⟨rest, hrest⟩ := hprefix
  exact step_of_decode hc (rest := rest) (by rw [← hrest, decodeUndoesEncode])

end Sys2Proof.Machine
end

section
/-! The operands one by one, and the errors of a step: which computation raises, and that only a raise returns an error
(40_execution_cycle.md R116 to R124). -/

namespace Sys2Proof.Machine

open Sys2Proof.Safety

/-- Settles O11: a read slot is the raw operand, or the Memory read of its effective address. -/
theorem readOperandFollowsItsMode : Obligations.ReadOperandFollowsItsMode :=
  fun _ _ => ⟨fun hb => memRead_eq_ok.mpr ⟨hb, rfl⟩, fun hb => memRead_eq_error.mpr ⟨hb, rfl⟩, rfl,
    fun hb => memRead_eq_ok.mpr ⟨hb, rfl⟩, fun hb => memRead_eq_error.mpr ⟨hb, rfl⟩⟩

theorem writeAddress_eq_error {o : Operand} {s : State} {e : Raise} : writeAddress o s = .error e ↔
    ¬ s.mem.inBounds (effectiveAddress o s) ∧ e = ⟨.outOfBounds, some (effectiveAddress o s)⟩ :=
  checkAddress_eq_error

/-- Settles O12: a write slot is the bounds check of its effective address. -/
theorem writeAddressFollowsItsMode : Obligations.WriteAddressFollowsItsMode :=
  fun _ _ => ⟨fun hb => writeAddress_eq_ok.mpr ⟨hb, rfl⟩, fun hb => writeAddress_eq_error.mpr ⟨hb, rfl⟩,
    fun hb => writeAddress_eq_ok.mpr ⟨hb, rfl⟩, fun hb => writeAddress_eq_error.mpr ⟨hb, rfl⟩⟩

/-- The four storing F3 instructions share `storeBinary`. -/
theorem exec_eq_storeBinary {a b dst : Operand} {i : Instr} (s : State)
    (hi : i ∈ [Instr.add a b dst, .multiply a b dst, .lessThan a b dst, .equals a b dst]) :
    ∃ f, exec i s = finish s (storeBinary f a b dst s) := by
  simp only [List.mem_cons, List.not_mem_nil, or_false] at hi
  rcases hi with rfl | rfl | rfl | rfl <;> exact ⟨_, rfl⟩

/-- What `storeBinary` raises before it computes a result, in the order of R122 rows 6 to 9. -/
inductive StoreRaises (s : State) (a b dst : Operand) : Raise → Prop where
  | immediateTarget : dst.mode = .immediate → StoreRaises s a b dst ⟨.immediateWriteTarget, some ((s.pc : Int) + 3)⟩
  | firstOperand {e : Raise} : dst.mode ≠ .immediate → readOperand a s = .error e → StoreRaises s a b dst e
  | secondOperand {x : Int} {e : Raise} : dst.mode ≠ .immediate → readOperand a s = .ok x →
      readOperand b s = .error e → StoreRaises s a b dst e
  | destination {x y : Int} : dst.mode ≠ .immediate → readOperand a s = .ok x → readOperand b s = .ok y →
      ¬ s.mem.inBounds (effectiveAddress dst s) →
      StoreRaises s a b dst ⟨.outOfBounds, some (effectiveAddress dst s)⟩

theorem storeBinary_of_raises {f : Int → Int → Except Raise Int} {s : State} {a b dst : Operand} {e : Raise}
    (h : StoreRaises s a b dst e) : storeBinary f a b dst s = .error e := by
  have hmode {o : Operand} (h : o.mode ≠ .immediate) : checkWriteMode 3 o s = .ok () := checkWriteMode_eq_ok.mpr h
  unfold storeBinary
  cases h with
  | immediateTarget hm => rw [checkWriteMode_eq_error.mpr ⟨hm, rfl⟩, andThen_error]; rfl
  | firstOperand hm ha => rw [hmode hm, andThen_ok, ha, andThen_error]
  | secondOperand hm ha hb => rw [hmode hm, andThen_ok, ha, andThen_ok, hb, andThen_error]
  | destination hm ha hb hd =>
    rw [hmode hm, andThen_ok, ha, andThen_ok, hb, andThen_ok, writeAddress_eq_error.mpr ⟨hd, rfl⟩, andThen_error]

/-- Settles O17: by the checks of the shape the four share. -/
theorem storingInstructionsRaiseInOrder : Obligations.StoringInstructionsRaiseInOrder := by
  intro a b dst s i hi
  obtain ⟨f, hexec⟩ := exec_eq_storeBinary s hi
  have hraise {e : Raise} (h : StoreRaises s a b dst e) : exec i s = .next (raise e s) := by
    rw [hexec, storeBinary_of_raises h, finish_error]
  exact ⟨fun hm => hraise (.immediateTarget hm), fun hm => ⟨fun e he => hraise (.firstOperand hm he),
    fun x e hx he => hraise (.secondOperand hm hx he), fun x y hx hy hd => hraise (.destination hm hx hy hd)⟩⟩

theorem not_returnsError_of_results_eq {s t : State} (h : t.hostResults = s.hostResults) : ¬ ReturnsError s t := by
  rintro ⟨e, he⟩
  rw [h] at he
  simpa using congrArg List.length he

/-- A result that is no error record. -/
theorem not_returnsError_of_result {s t : State} {r : HostResult} (h : t.hostResults = s.hostResults ++ [r])
    (hr : ∀ e, r ≠ .error e) : ¬ ReturnsError s t := by
  rintro ⟨e, he⟩
  rw [h, List.append_right_inj, List.singleton_inj] at he
  exact hr e he

theorem suspend_not_returnsError {v : Int} {s t : State} (h : t.hostResults = s.hostResults) :
    ¬ ReturnsError s (suspend v t) := by
  rcases suspend_cases v t with hs | hs <;> rw [hs]
  · exact not_returnsError_of_results_eq h
  · exact not_returnsError_of_result (r := .suspension (.running t.inq v)) (by rw [deliver_hostResults, h]) nofun

theorem haltReturn_not_returnsError (s : State) : ¬ ReturnsError s (haltReturn s) := by
  rcases haltReturn_cases s with hs | hs <;> rw [hs] <;> exact not_returnsError_of_result rfl nofun

/-- An instruction that returns an error is an error entry and nothing else (R124). -/
theorem exec_returnsError {i : Instr} {s t : State} (h : exec i s = .next t) (he : ReturnsError s t) :
    ∃ e, t = raise e s := by
  cases exec_result h with
  | raised _ e => exact ⟨e, rfl⟩
  | emitted => exact absurd he (suspend_not_returnsError rfl)
  | halted => exact absurd he (haltReturn_not_returnsError s)
  | _ => exact absurd he (not_returnsError_of_results_eq rfl)

theorem step_returnsError {s t : State} (hc : s.ctl = .exec) (h : step s = .next t) (he : ReturnsError s t) :
    ∃ e, t = raise e s := by
  cases step_result h with
  | notDecoded _ _ ht => exact ⟨_, ht⟩
  | executed _ _ hexec => exact exec_returnsError hexec he
  | rested hi => rw [hc] at hi; cases hi
  | performed hi => rw [hc] at hi; cases hi

/-- Settles O29: the error entry changes the controller and the results only. -/
theorem failingStepChangesNothing : Obligations.FailingStepChangesNothing := by
  intro s t hc h he
  obtain ⟨e, rfl⟩ := step_returnsError hc h he
  exact ⟨rfl, rfl, rfl, rfl, rfl, rfl, rfl, rfl, rfl, rfl, e.kind, e.addr, rfl⟩

/-- A step of an executing device always goes on, by the decoded instruction or the error entry (R110). -/
theorem step_goes_on {s : State} (hc : s.ctl = .exec) : ∃ t, step s = .next t := by
  simp only [step, hc, instrStep]
  split
  · exact ⟨_, rfl⟩
  · exact exec_goes_on _ s

/-- Which entry point is in progress decides what an Output answers (47_controller.md R265, R267). -/
theorem suspend_by_entry (v : Int) (s : State) :
    s.entry = .run ∧ suspend v s = s ∨
      s.entry = .runSuspended ∧ suspend v s = deliver (.suspension (.running s.inq v)) s := by
  unfold suspend; cases s.entry <;> simp

theorem haltReturn_by_entry (s : State) :
    s.entry = .run ∧ haltReturn s = deliver (.lastOutput s.last) s ∨
      s.entry = .runSuspended ∧ haltReturn s = deliver (.suspension (.halted s.last)) s := by
  unfold haltReturn; cases s.entry <;> simp

/-- Settles O31: by the ways an instruction goes on; an Output and a Halt answer by the entry point in progress. -/
theorem executionEndsOnlyAsListed : Obligations.ExecutionEndsOnlyAsListed := by
  intro s hc
  obtain ⟨t, h⟩ := step_goes_on hc
  refine ⟨t, h, ?_⟩
  cases step_result h with
  | notDecoded _ _ ht => exact .inr (.inl (ht ▸ ⟨rfl, _, rfl⟩))
  | rested hi => rw [hc] at hi; cases hi
  | performed hi => rw [hc] at hi; cases hi
  | @executed i rest _ hd hexec =>
    cases exec_result hexec with
    | raised _ e => exact .inr (.inl ⟨rfl, _, rfl⟩)
    | @emitted a v =>
      rcases suspend_by_entry v (advance 2 { s with last := some v }) with ⟨-, hs⟩ | ⟨hentry, hs⟩ <;> rw [hs]
      · exact .inl ⟨hc, rfl⟩
      · exact .inr (.inr ⟨rfl, _, rest, hd, .inl ⟨a, v, rfl, hentry, rfl, rfl⟩⟩)
    | halted =>
      rcases haltReturn_by_entry s with ⟨hentry, hs⟩ | ⟨hentry, hs⟩ <;> rw [hs]
      · exact .inr (.inr ⟨rfl, _, rest, hd, .inr (.inr ⟨rfl, hentry, rfl⟩)⟩)
      · exact .inr (.inr ⟨rfl, _, rest, hd, .inr (.inl ⟨rfl, hentry, rfl⟩)⟩)
    | _ => exact .inl ⟨hc, rfl⟩

end Sys2Proof.Machine
end

section
/-! The table of R122 against the step. `Answers` says that a step raises one given error or none; the rows of the table
are then passed one by one, the first five by the decoder and the others by the checks of the instruction. -/

namespace Sys2Proof.Machine

open Sys2Proof.Safety

/-- The first row of a table that applies (R122: "the first that applies is the one reported"). -/
def firstOf (rows : List (Bool × Raise)) : Option Raise := (rows.find? fun row => row.1).map fun row => row.2

theorem firstError_eq_firstOf (s : State) : firstError s = firstOf (errorRows s) := rfl

theorem firstOf_cons_true (e : Raise) (rows : List (Bool × Raise)) : firstOf ((true, e) :: rows) = some e := rfl

theorem firstOf_cons_false (e : Raise) (rows : List (Bool × Raise)) : firstOf ((false, e) :: rows) = firstOf rows :=
  rfl

/-- The outcome `o` of a step from `s` is the given error, or goes on without one. -/
def Answers (s : State) (o : Out) (r : Option Raise) : Prop :=
  (∀ e, r = some e → o = .next (raise e s)) ∧ (r = none → ∃ t, o = .next t ∧ ¬ ReturnsError s t)

section Rules

variable {s t : State} {α : Type}

theorem answers_next (h : ¬ ReturnsError s t) : Answers s (.next t) (firstOf []) :=
  ⟨nofun, fun _ => ⟨t, rfl, h⟩⟩

/-- A row that applies must be raised; past one that does not, the rest of the table decides. -/
theorem answers_row {o : Out} {p : Bool} {e : Raise} {rows : List (Bool × Raise)}
    (hraise : p = true → o = .next (raise e s)) (hpass : p = false → Answers s o (firstOf rows)) :
    Answers s o (firstOf ((p, e) :: rows)) := by
  cases p with
  | true =>
    rw [firstOf_cons_true]
    refine ⟨fun e' he => ?_, nofun⟩
    cases he
    exact hraise rfl
  | false => exact hpass rfl

/-- A check in front of a computation is a row in front of the computation's rows. -/
theorem answers_check {p : Prop} [Decidable p] {x : Except Raise α} {e : Raise} {v : α} {f : α → Except Raise State}
    {rows : List (Bool × Raise)} (hx : x = if p then .error e else .ok v)
    (hf : ¬ p → Answers s (finish s (f v)) (firstOf rows)) :
    Answers s (finish s (andThen x f)) (firstOf ((decide p, e) :: rows)) := by
  refine answers_row (fun hp => ?_) fun hp => ?_
  · rw [hx, if_pos (of_decide_eq_true hp), andThen_error, finish_error]
  · rw [hx, if_neg (of_decide_eq_false hp), andThen_ok]
    exact hf (of_decide_eq_false hp)

theorem answers_checkWord {v : Int} {f : Int → Except Raise State} {rows : List (Bool × Raise)}
    (hf : Answers s (finish s (f v)) (firstOf rows)) : Answers s (finish s (andThen (checkWord v s) f))
      (firstOf ((decide ¬ representable s.config.wordBits v, ⟨.overflow, none⟩) :: rows)) :=
  answers_check (by rw [checkWord, ite_not]) fun _ => hf

theorem answers_checkAddress {a : Int} {f : Int → Except Raise State} {rows : List (Bool × Raise)}
    (hf : Answers s (finish s (f a)) (firstOf rows)) : Answers s (finish s (andThen (checkAddress a s) f))
      (firstOf ((decide ¬ s.mem.inBounds a, ⟨.outOfBounds, some a⟩) :: rows)) :=
  answers_check (by rw [checkAddress, ite_not]) fun _ => hf

end Rules

/-- Rows 7 to 9 for slot `k`. -/
def boundsRow (s : State) (k : Nat) : Bool × Raise :=
  (decide (slotOutOfBounds s k), ⟨.outOfBounds, some (addressAt s k)⟩)

/-- Row 6 for write slot `k`. -/
def writeModeRow (s : State) (k : Nat) : Bool × Raise :=
  (decide (modeDigit s k = 1), ⟨.immediateWriteTarget, some ((s.pc : Int) + k)⟩)

/-- Row 11 for the exact result `v`. -/
def overflowRow (s : State) (v : Int) : Bool × Raise :=
  (decide ¬ representable s.config.wordBits v, ⟨.overflow, none⟩)

/-- Row 12 for a jump taken under `p`. -/
def jumpRow (s : State) (p : Int → Bool) : Bool × Raise :=
  (decide (p (valueAt s 1) = true ∧ ¬ s.mem.inBounds (valueAt s 2)), ⟨.outOfBounds, some (valueAt s 2)⟩)

/-- Rows 6 to 12 as they stand for one opcode. -/
def rowsOf (s : State) (op : Opcode) : List (Bool × Raise) :=
  match op with
  | .add => [writeModeRow s 3, boundsRow s 1, boundsRow s 2, boundsRow s 3, overflowRow s (valueAt s 1 + valueAt s 2)]
  | .multiply =>
    [writeModeRow s 3, boundsRow s 1, boundsRow s 2, boundsRow s 3, overflowRow s (valueAt s 1 * valueAt s 2)]
  | .input => [writeModeRow s 1, boundsRow s 1, (decide (s.inq = []), ⟨.emptyInput, none⟩)]
  | .output => [boundsRow s 1]
  | .jumpIfTrue => [boundsRow s 1, boundsRow s 2, jumpRow s fun c => decide (c ≠ 0)]
  | .jumpIfFalse => [boundsRow s 1, boundsRow s 2, jumpRow s fun c => decide (c = 0)]
  | .lessThan => [writeModeRow s 3, boundsRow s 1, boundsRow s 2, boundsRow s 3]
  | .equals => [writeModeRow s 3, boundsRow s 1, boundsRow s 2, boundsRow s 3]
  | .adjustRelativeBase => [boundsRow s 1, overflowRow s (s.rb + valueAt s 1)]
  | .halt => []

/-- Of rows 6 to 12 the opcode selects those that its instruction checks. -/
theorem firstOf_errorRows_drop {s : State} {op : Opcode} (h : opAtPc s = op.number) :
    firstOf ((errorRows s).drop 5) = firstOf (rowsOf s op) := by
  cases op <;> simp only [Opcode.number] at h <;>
    simp [errorRows, h, rowsOf, firstOf, List.find?_cons, writeSlotOf, boundsRow, writeModeRow, overflowRow, jumpRow,
      exactResult, jumpTaken]

/-- Slot `k` of the instruction at pc, read from its digit and its cell, is this operand. -/
structure SlotHolds (s : State) (k : Nat) (o : Operand) : Prop where
  mode : modeDigit s k = o.mode.digit
  raw : rawAt s k = o.raw

section Slots

variable {s : State} {k : Nat} {o : Operand}

theorem SlotHolds.immediate_iff (h : SlotHolds s k o) : modeDigit s k = 1 ↔ o.mode = .immediate := by
  rw [h.mode]
  cases o.mode <;> simp [Mode.digit]

theorem SlotHolds.addressAt_eq (h : SlotHolds s k o) : addressAt s k = effectiveAddress o s := by
  rw [addressAt, effectiveAddress, h.mode, h.raw]
  cases o.mode <;> rfl

theorem readOperand_of_immediate (h : o.mode = .immediate) : readOperand o s = .ok o.raw := by
  simp only [readOperand, h]

theorem readOperand_of_ne_immediate (h : o.mode ≠ .immediate) : readOperand o s = memRead (effectiveAddress o s) s := by
  unfold readOperand
  cases hm : o.mode
  · rfl
  · exact absurd hm h
  · rfl

theorem SlotHolds.readOperand_eq (h : SlotHolds s k o) : readOperand o s =
    if slotOutOfBounds s k then .error ⟨.outOfBounds, some (addressAt s k)⟩ else .ok (valueAt s k) := by
  by_cases hm : o.mode = .immediate
  · have hdigit := h.immediate_iff.mpr hm
    rw [if_neg fun hout => hout.1 hdigit, valueAt, if_pos hdigit, h.raw, readOperand_of_immediate hm]
  · have hdigit := mt h.immediate_iff.mp hm
    rw [readOperand_of_ne_immediate hm, ← h.addressAt_eq, valueAt, if_neg hdigit]
    split
    case isTrue hout => exact memRead_eq_error.mpr ⟨hout.2, rfl⟩
    case isFalse hin => exact memRead_eq_ok.mpr ⟨by_contra fun hb => hin ⟨hdigit, hb⟩, rfl⟩

theorem SlotHolds.checkWriteMode_eq (h : SlotHolds s k o) : checkWriteMode k o s =
    if modeDigit s k = 1 then .error ⟨.immediateWriteTarget, some ((s.pc : Int) + k)⟩ else .ok () := by
  split
  case isTrue hd => exact checkWriteMode_eq_error.mpr ⟨h.immediate_iff.mp hd, rfl⟩
  case isFalse hd => exact checkWriteMode_eq_ok.mpr (mt h.immediate_iff.mpr hd)

theorem SlotHolds.writeAddress_eq (h : SlotHolds s k o) (hm : modeDigit s k ≠ 1) : writeAddress o s =
    if slotOutOfBounds s k then .error ⟨.outOfBounds, some (addressAt s k)⟩ else .ok (addressAt s k) := by
  rw [writeAddress, checkAddress, ← h.addressAt_eq, ← ite_not]
  simp only [slotOutOfBounds, hm, ne_eq, not_false_eq_true, true_and]

end Slots

section Instructions

variable {s : State} {a b dst : Operand}

theorem answers_commit {t : State} (h : t.hostResults = s.hostResults) : Answers s (finish s (.ok t)) (firstOf []) :=
  answers_next (not_returnsError_of_results_eq h)

theorem answers_readOperand {k : Nat} {f : Int → Except Raise State} {rows : List (Bool × Raise)}
    (h : SlotHolds s k a) (hf : Answers s (finish s (f (valueAt s k))) (firstOf rows)) :
    Answers s (finish s (andThen (readOperand a s) f)) (firstOf (boundsRow s k :: rows)) :=
  answers_check h.readOperand_eq fun _ => hf

theorem answers_checkWriteMode {k : Nat} {f : Unit → Except Raise State} {rows : List (Bool × Raise)}
    (h : SlotHolds s k dst) (hf : modeDigit s k ≠ 1 → Answers s (finish s (f ())) (firstOf rows)) :
    Answers s (finish s (andThen (checkWriteMode k dst s) f)) (firstOf (writeModeRow s k :: rows)) :=
  answers_check h.checkWriteMode_eq hf

theorem answers_writeAddress {k : Nat} {f : Int → Except Raise State} {rows : List (Bool × Raise)}
    (h : SlotHolds s k dst) (hm : modeDigit s k ≠ 1) (hf : ∀ ea, Answers s (finish s (f ea)) (firstOf rows)) :
    Answers s (finish s (andThen (writeAddress dst s) f)) (firstOf (boundsRow s k :: rows)) :=
  answers_check (h.writeAddress_eq hm) fun _ => hf _

theorem answers_storeBinary {g : Int → Int → Except Raise Int} {rows : List (Bool × Raise)} (ha : SlotHolds s 1 a)
    (hb : SlotHolds s 2 b) (hd : SlotHolds s 3 dst)
    (hg : ∀ ea, Answers s (finish s (andThen (g (valueAt s 1) (valueAt s 2)) fun v =>
      .ok (advance 4 (storeWord ea v s)))) (firstOf rows)) :
    Answers s (finish s (storeBinary g a b dst s))
      (firstOf (writeModeRow s 3 :: boundsRow s 1 :: boundsRow s 2 :: boundsRow s 3 :: rows)) :=
  answers_checkWriteMode hd fun hm =>
    answers_readOperand ha <| answers_readOperand hb <| answers_writeAddress hd hm hg

theorem answers_jumpWhen {p : Int → Bool} (ha : SlotHolds s 1 a) (hb : SlotHolds s 2 b) :
    Answers s (finish s (jumpWhen p a b s)) (firstOf [boundsRow s 1, boundsRow s 2, jumpRow s p]) := by
  refine answers_readOperand ha <| answers_readOperand hb ?_
  by_cases hp : p (valueAt s 1) = true
  · simp only [jumpRow, hp, true_and, if_true]
    exact answers_checkAddress (answers_commit rfl)
  · rw [if_neg hp, jumpRow, decide_eq_false fun h => hp h.1, firstOf_cons_false]
    exact answers_commit rfl

/-- An instruction whose operands are the slots at pc raises by its rows of the table. -/
theorem exec_answers {i : Instr} (h : ∀ k o, i.operands[k]? = some o → SlotHolds s (k + 1) o) :
    Answers s (exec i s) (firstOf (rowsOf s i.opcode)) := by
  cases i with
  | add a b dst | multiply a b dst =>
    exact answers_storeBinary (h 0 a rfl) (h 1 b rfl) (h 2 dst rfl) fun _ => answers_checkWord (answers_commit rfl)
  | lessThan a b dst | equals a b dst =>
    exact answers_storeBinary (h 0 a rfl) (h 1 b rfl) (h 2 dst rfl) fun _ => answers_commit rfl
  | input dst =>
    refine answers_checkWriteMode (h 0 dst rfl) fun hm => answers_writeAddress (h 0 dst rfl) hm fun ea => ?_
    refine answers_row (fun hempty => ?_) fun hsome => ?_
    · rw [of_decide_eq_true hempty, finish_error]
    · obtain ⟨v, rest, hq⟩ := List.exists_cons_of_ne_nil (of_decide_eq_false hsome)
      rw [hq]
      exact answers_commit rfl
  | output a =>
    exact answers_readOperand (h 0 a rfl) (answers_next (suspend_not_returnsError rfl))
  | jumpIfTrue cond target | jumpIfFalse cond target => exact answers_jumpWhen (h 0 cond rfl) (h 1 target rfl)
  | adjustRelativeBase a => exact answers_readOperand (h 0 a rfl) (answers_checkWord (answers_commit rfl))
  | halt => exact answers_next (haltReturn_not_returnsError s)

end Instructions

/-- The arity by opcode value is that of the opcode (R84). -/
theorem arityOf_number (op : Opcode) : arityOf op.number = op.arity := by
  cases op <;> rfl

/-- The operands read behind a decoded word (40_execution_cycle.md R113) are the slots at pc. -/
theorem slotHolds_of_header {s : State} {h : Header} {i : Instr} {k : Nat} {o : Operand}
    (hword : decodeWord (wordAtPc s) = .ok h)
    (hmodes : i.operands.map Operand.mode = [h.mode1, h.mode2, h.mode3].take h.op.arity)
    (hraws : i.operands.map Operand.raw = (List.range h.op.arity).map fun k => s.mem.get (s.pc + 1 + k))
    (ho : i.operands[k]? = some o) : SlotHolds s (k + 1) o where
  mode := decodeWord_slot_digit hword (by rw [← hmodes, List.getElem?_map, ho, Option.map_some])
  raw := by
    have hraw : (i.operands.map Operand.raw)[k]? = some o.raw := by rw [List.getElem?_map, ho, Option.map_some]
    rw [hraws, List.getElem?_map, Option.map_eq_some_iff] at hraw
    obtain ⟨j, hj, hget⟩ := hraw
    obtain ⟨_, hj⟩ := List.getElem?_eq_some_iff.mp hj
    rw [List.getElem_range] at hj
    subst hj
    rw [← hget, rawAt, Nat.add_right_comm, Nat.add_assoc]

/-- Settles O30: row by row; the first five by what the step makes of the word at pc and of the Words behind it, the
others by the checks of the instruction that they are. -/
theorem firstApplicableErrorIsReported : Obligations.FirstApplicableErrorIsReported := by
  intro s hc
  change Answers s (step s) (firstError s)
  rw [firstError_eq_firstOf]
  refine answers_row (fun hend => (fetchIsBoundsChecked s).1 hc (of_decide_eq_true hend)) fun hinside => ?_
  have hpc : s.pc < s.mem.len := not_le.mp (of_decide_eq_false hinside)
  obtain ⟨hneg, hlong⟩ := negativeAndOverlongWordsRaise s hc hpc
  obtain ⟨hopcode, hmode⟩ := illegalOpcodesAndModesRaise s hc hpc
  refine answers_row (fun hunknown => (of_decide_eq_true hunknown).elim hneg hopcode) fun hknown => ?_
  obtain ⟨h0, hmem⟩ : 0 ≤ wordAtPc s ∧ opAtPc s ∈ [1, 2, 3, 4, 5, 6, 7, 8, 9, 99] := by
    simpa only [not_or, not_lt, not_not] using of_decide_eq_false hknown
  obtain ⟨op, hop⟩ := Opcode.exists_number_eq hmem
  have harity : arityOf (opAtPc s) = op.arity := by rw [hop, arityOf_number]
  rw [harity]
  refine answers_row (fun hbad => ?_) fun hmodes => ?_
  · obtain ⟨k, hk, hbad⟩ := List.any_eq_true.mp hbad
    obtain ⟨hle, hdigit⟩ := of_decide_eq_true hbad
    exact hmode op h0 hop k ((by decide : ∀ k ∈ [1, 2, 3], 1 ≤ k) k hk) hle hdigit
  refine answers_row (fun hbad => hlong op h0 hop (of_decide_eq_true hbad)) fun hshort => ?_
  obtain ⟨h, rfl, hword⟩ : ∃ h, h.op = op ∧ decodeWord (wordAtPc s) = .ok h := by
    refine decodeWord_of_digits h0 hop (fun k hk hle => ?_) (not_not.mp (of_decide_eq_false hshort))
    have hgood := of_decide_eq_false (eq_false_of_ne_true (List.any_eq_false.mp hmodes k hk))
    exact not_not.mp fun hdigit => hgood ⟨hle, hdigit⟩
  obtain ⟨habsent, hpresent⟩ := operandPresence s h hc hpc hword
  refine answers_row (fun hmissing => habsent (of_decide_eq_true hmissing)) fun hthere => ?_
  obtain ⟨i, hstep, hi, himodes, hiraws⟩ := hpresent (not_le.mp (of_decide_eq_false hthere))
  change Answers s (step s) (firstOf ((errorRows s).drop 5))
  rw [hstep, firstOf_errorRows_drop (op := i.opcode) (hi ▸ hop)]
  exact exec_answers fun k o ho => slotHolds_of_header hword himodes hiraws ho

end Sys2Proof.Machine
end

section
/-! Add and Multiply (41_arith.md R140 to R142): with its operands resolved, an F3 instruction is its result and the
commit; the two differ in the exact result they check. -/

namespace Sys2Proof.Machine

/-- Past the checks of R122 rows 6 to 9, what is left of an F3 instruction is its own result and the commit. -/
theorem storeBinary_of_resolved {f : Int → Int → Except Raise Int} {a b dst : Operand} {s : State} {x y : Int}
    (ha : readOperand a s = .ok x) (hb : readOperand b s = .ok y) (hm : dst.mode ≠ .immediate)
    (hd : s.mem.inBounds (effectiveAddress dst s)) : storeBinary f a b dst s =
      andThen (f x y) fun v => .ok (advance 4 (storeWord (effectiveAddress dst s) v s)) := by
  have hmode : checkWriteMode 3 dst s = .ok () := checkWriteMode_eq_ok.mpr hm
  have haddress : writeAddress dst s = .ok (effectiveAddress dst s) := writeAddress_eq_ok.mpr ⟨hd, rfl⟩
  rw [storeBinary, hmode, andThen_ok, ha, andThen_ok, hb, andThen_ok, haddress, andThen_ok]

/-- A computation that begins with the check of its exact result `v` continues with `v`, or raises Overflow (R142). -/
theorem finish_checkWord (v : Int) (s : State) (f : Int → Except Raise State) :
    (representable s.config.wordBits v → finish s (andThen (checkWord v s) f) = finish s (f v)) ∧
    (¬ representable s.config.wordBits v →
      finish s (andThen (checkWord v s) f) = .next (raise ⟨.overflow, none⟩ s)) := by
  constructor
  · intro hv
    rw [checkWord_eq_ok.mpr ⟨hv, rfl⟩, andThen_ok]
  · intro hv
    rw [checkWord_eq_error.mpr ⟨hv, rfl⟩, andThen_error, finish_error]

/-- Settles O14: both are the check of their exact result, followed by the commit. -/
theorem arithmeticIsExactOrOverflows : Obligations.ArithmeticIsExactOrOverflows := by
  intro a b dst s x y ha hb hm hd
  have hexec (g : Int → Int → Int) := congrArg (finish s)
    (storeBinary_of_resolved (f := fun x y => checkWord (g x y) s) ha hb hm hd)
  obtain ⟨hsum, hsumOverflow⟩ := finish_checkWord (x + y) s _
  obtain ⟨hproduct, hproductOverflow⟩ := finish_checkWord (x * y) s _
  exact ⟨fun hv => (hexec (· + ·)).trans (hsum hv), fun hv => (hexec (· + ·)).trans (hsumOverflow hv),
    fun hv => (hexec (· * ·)).trans (hproduct hv), fun hv => (hexec (· * ·)).trans (hproductOverflow hv)⟩

end Sys2Proof.Machine
end

section
/-! Input and Output (42_io.md R160, R161): the two checks of Input's destination stand in front of its queue; an Output
commits, and the entry point in progress decides whether it suspends. -/

namespace Sys2Proof.Machine

/-- A slot that is no Immediate passes the write-target check (40_execution_cycle.md R114). -/
theorem andThen_checkWriteMode {β : Type} {k : Nat} {o : Operand} {s : State} (hm : o.mode ≠ .immediate)
    (f : Unit → Except Raise β) : andThen (checkWriteMode k o s) f = f () := by
  rw [checkWriteMode_eq_ok.mpr hm, andThen_ok]

/-- A write slot in bounds resolves to its effective address (40_execution_cycle.md R119). -/
theorem andThen_writeAddress {β : Type} {o : Operand} {s : State} (hb : s.mem.inBounds (effectiveAddress o s))
    (f : Int → Except Raise β) : andThen (writeAddress o s) f = f (effectiveAddress o s) := by
  rw [writeAddress_eq_ok.mpr ⟨hb, rfl⟩, andThen_ok]

/-- Settles O18: case by case, along the checks of R160 up to the one that decides. -/
theorem inputPopsIntoMemory : Obligations.InputPopsIntoMemory := by
  refine fun dst s => ⟨fun hm => ?immediate, fun hm hb => ?outside, fun hm hb hq => ?empty,
    fun v rest hm hb hq => ?popped⟩ <;> rw [exec, execInput]
  case immediate => rw [checkWriteMode_eq_error.mpr ⟨hm, rfl⟩, andThen_error, finish_error, Nat.cast_one]
  case outside => rw [andThen_checkWriteMode hm, writeAddress_eq_error.mpr ⟨hb, rfl⟩, andThen_error, finish_error]
  case empty => rw [andThen_checkWriteMode hm, andThen_writeAddress hb, hq, finish_error]
  case popped => rw [andThen_checkWriteMode hm, andThen_writeAddress hb, hq, finish_ok, storeWord, advance]

/-- Under `run` the Running value is resumed at once (47_controller.md R265). -/
theorem suspend_of_run {s : State} (h : s.entry = .run) (v : Int) : suspend v s = s := by
  rw [suspend, h]

/-- Under `run_suspended` and `resume` it is returned to the host (47_controller.md R267). -/
theorem suspend_of_runSuspended {s : State} (h : s.entry = .runSuspended) (v : Int) :
    suspend v s = deliver (.suspension (.running s.inq v)) s := by
  rw [suspend, h]

/-- An Output whose operand is read commits and then suspends (R161). -/
theorem exec_output_of_read {a : Operand} {s : State} {v : Int} (hv : readOperand a s = .ok v) :
    exec (.output a) s = .next (suspend v (advance 2 { s with last := some v })) := by
  rw [exec, execOutput, hv, andThen_ok, finish_ok]

/-- Settles O19: the operand's error, or the commit and what the entry point in progress makes of it. -/
theorem outputEmitsAndSuspends : Obligations.OutputEmitsAndSuspends := by
  refine fun a s => ⟨fun e he => ?unreadable, fun v hv hentry => ?suspended, fun v hv hentry => ?continued⟩
  case unreadable => rw [exec, execOutput, he, andThen_error, finish_error]
  case suspended =>
    rw [exec_output_of_read hv, suspend_of_runSuspended]
    · rfl
    · exact hentry
  case continued =>
    rw [exec_output_of_read hv, suspend_of_run]
    · rfl
    · exact hentry

end Sys2Proof.Machine
end

section
/-! JumpIfTrue and JumpIfFalse (43_jump.md R180 to R182): the two are one shape, which reads both operands whether or not
the jump is taken, and differ in the conditions that take it. -/

namespace Sys2Proof.Machine

section Jumps

variable {taken : Int → Bool} {cond target : Operand} {s : State}

theorem finish_jumpWhen_of_condition_error {e : Raise} (hc : readOperand cond s = .error e) :
    finish s (jumpWhen taken cond target s) = .next (raise e s) := by
  rw [jumpWhen, hc, andThen_error, finish_error]

theorem finish_jumpWhen_of_target_error {c : Int} {e : Raise} (hc : readOperand cond s = .ok c)
    (ht : readOperand target s = .error e) : finish s (jumpWhen taken cond target s) = .next (raise e s) := by
  rw [jumpWhen, hc, andThen_ok, ht, andThen_error, finish_error]

/-- With both operands read, the condition decides whether the target is checked and becomes the pc (R182). -/
theorem finish_jumpWhen_of_resolved {c d : Int} (hc : readOperand cond s = .ok c) (ht : readOperand target s = .ok d) :
    (taken c = true → s.mem.inBounds d →
      finish s (jumpWhen taken cond target s) = .next { s with pc := d.toNat }) ∧
    (taken c = true → ¬ s.mem.inBounds d →
      finish s (jumpWhen taken cond target s) = .next (raise ⟨.outOfBounds, some d⟩ s)) ∧
    (taken c = false → finish s (jumpWhen taken cond target s) = .next (advance 3 s)) := by
  refine ⟨fun hp hb => ?inside, fun hp hb => ?outside, fun hp => ?notTaken⟩
  case inside => rw [jumpWhen_eq_ok.mpr ⟨c, d, hc, ht, .inl ⟨hp, hb, rfl⟩⟩, finish_ok]
  case outside =>
    rw [jumpWhen, hc, andThen_ok, ht, andThen_ok, if_pos hp, checkAddress_eq_error.mpr ⟨hb, rfl⟩, andThen_error,
      finish_error]
  case notTaken => rw [jumpWhen_eq_ok.mpr ⟨c, d, hc, ht, .inr ⟨hp, rfl⟩⟩, finish_ok]

end Jumps

/-- Settles O20: the jump that a nonzero condition takes. -/
theorem jumpIfTrueJumpsOnNonzero : Obligations.JumpIfTrueJumpsOnNonzero := by
  refine fun cond target s => ⟨fun e hc => finish_jumpWhen_of_condition_error hc,
    fun c e hc ht => finish_jumpWhen_of_target_error hc ht, fun c d hc ht => ?_⟩
  obtain ⟨hinside, houtside, hstay⟩ := finish_jumpWhen_of_resolved (taken := fun c => decide (c ≠ 0)) hc ht
  exact ⟨fun hne => hinside (decide_eq_true hne), fun hne => houtside (decide_eq_true hne),
    fun hzero => hstay (decide_eq_false (not_not.mpr hzero))⟩

/-- Settles O21: the jump that only a zero condition takes. -/
theorem jumpIfFalseJumpsOnZero : Obligations.JumpIfFalseJumpsOnZero := by
  refine fun cond target s => ⟨fun e hc => finish_jumpWhen_of_condition_error hc,
    fun c e hc ht => finish_jumpWhen_of_target_error hc ht, fun c d hc ht => ?_⟩
  obtain ⟨hinside, houtside, hstay⟩ := finish_jumpWhen_of_resolved (taken := fun c => decide (c = 0)) hc ht
  exact ⟨fun hzero => hinside (decide_eq_true hzero), fun hzero => houtside (decide_eq_true hzero),
    fun hne => hstay (decide_eq_false hne)⟩

end Sys2Proof.Machine
end

section
/-! LessThan and Equals (44_compare.md R200 to R202): F3 instructions whose result is a truth value, so that no check
stands between it and the commit. -/

namespace Sys2Proof.Machine

open Sys2Proof.Safety

/-- Settles O15: with the operands resolved, what is left is the comparison's own Word and the commit. -/
theorem comparisonsStoreOneOrZero : Obligations.ComparisonsStoreOneOrZero := by
  intro a b dst s x y ha hb hm hd
  have hexec (word : Int → Int → Int) := congrArg (finish s)
    (storeBinary_of_resolved (f := fun x y => .ok (word x y)) ha hb hm hd)
  rw [← lessThanWord_eq, ← equalsWord_eq]
  exact ⟨hexec lessThanWord, hexec equalsWord⟩

theorem truthWord_eq_zero_or_one (p : Bool) : truthWord p = 0 ∨ truthWord p = 1 := by
  cases p
  · exact .inl rfl
  · exact .inr rfl

theorem truthWord_eq_one {p : Bool} : truthWord p = 1 ↔ p = true := by
  cases p <;> decide

theorem lessThanWord_eq_one {x y : Int} : lessThanWord x y = 1 ↔ x < y :=
  truthWord_eq_one.trans decide_eq_true_iff

theorem equalsWord_eq_one {x y : Int} : equalsWord x y = 1 ↔ x = y :=
  truthWord_eq_one.trans decide_eq_true_iff

/-- The Word that a comparison known by its operands stores is a truth value, and 1 exactly when it holds of them. -/
theorem StoresResult.comparison {s : State} {a b a' b' dst : Operand} {x y v : Int} {i : Instr}
    (h : StoresResult s a' b' dst x y i v) (hi : i = .lessThan a b dst ∨ i = .equals a b dst) :
    a' = a ∧ b' = b ∧ (v = 0 ∨ v = 1) ∧
      (v = 1 ↔ i = .lessThan a b dst ∧ x < y ∨ i = .equals a b dst ∧ x = y) := by
  rcases hi with rfl | rfl
  case inl =>
    cases h
    exact ⟨rfl, rfl, truthWord_eq_zero_or_one _, by simp [lessThanWord_eq_one]⟩
  case inr =>
    cases h
    exact ⟨rfl, rfl, truthWord_eq_zero_or_one _, by simp [equalsWord_eq_one]⟩

/-- Settles O16: the destination reads back the stored Word, which is the comparison's truth value. -/
theorem comparisonResultIsZeroOrOne : Obligations.ComparisonResultIsZeroOrOne := by
  intro a b dst s t i hwf hi h hne
  have hdst : destination i = some dst := by rcases hi with rfl | rfl <;> rfl
  obtain ⟨v, hb, hmem, -, ⟨rfl, -⟩ | ⟨a', b', x, y, hx, hy, hv⟩⟩ := exec_stores h hdst hne
  · rcases hi with hi | hi <;> cases hi
  · obtain ⟨rfl, rfl, hbit, hone⟩ := hv.comparison hi
    rw [memRead_set_same hwf hb hmem]
    simp only [Except.ok.injEq]
    exact ⟨hbit, x, y, hx, hy, hone⟩

end Sys2Proof.Machine
end

section
/-! AdjustRelativeBase (45_relbase.md R220, R221): the check of the exact sum stands between the operand, read with the
old base, and the commit; and a base of 0 adds nothing to a Relative address. -/

namespace Sys2Proof.Machine

/-- With a base of 0, Relative mode forms the address that Position mode forms (R221). -/
theorem effectiveAddress_rel_of_rb_zero {s : State} (h : s.rb = 0) (k : Int) :
    effectiveAddress (.rel k) s = effectiveAddress (.pos k) s := by
  simp only [effectiveAddress, h, zero_add]

/-- Settles O27: one instruction writes the base, and either access sees of a slot's mode its effective address only. -/
theorem onlyAdjustWritesTheRelativeBase : Obligations.OnlyAdjustWritesTheRelativeBase := by
  refine ⟨fun s t i h hne => (exec_rb h).resolve_left hne, fun s k hrb => ⟨?read, ?write⟩⟩
  case read => exact congrArg (memRead · s) (effectiveAddress_rel_of_rb_zero hrb k)
  case write => exact congrArg (checkAddress · s) (effectiveAddress_rel_of_rb_zero hrb k)

/-- An AdjustRelativeBase whose operand is read checks the new base and commits it (R220). -/
theorem exec_adjustRelativeBase_of_read {a : Operand} {s : State} {v : Int} (hv : readOperand a s = .ok v) :
    exec (.adjustRelativeBase a) s =
      finish s (andThen (checkWord (s.rb + v) s) fun r => .ok (advance 2 { s with rb := r })) := by
  rw [exec, execAdjustRelativeBase, hv, andThen_ok]

/-- Settles O22: the operand's error, or the check of the exact sum and then the commit. -/
theorem adjustAddsToTheRelativeBase : Obligations.AdjustAddsToTheRelativeBase := by
  refine fun a s => ⟨fun e he => ?unreadable, fun v hv hword => ?adjusted, fun v hv hword => ?overflow⟩
  case unreadable => rw [exec, execAdjustRelativeBase, he, andThen_error, finish_error]
  case adjusted => rw [exec_adjustRelativeBase_of_read hv, (finish_checkWord _ s _).1 hword, finish_ok, advance]
  case overflow => rw [exec_adjustRelativeBase_of_read hv, (finish_checkWord _ s _).2 hword]

end Sys2Proof.Machine
end

section
/-! Halt (46_halt.md R240): the end of its step is the controller's return, which the entry point in progress names. -/

namespace Sys2Proof.Machine

/-- `run` returns the last output alone (47_controller.md R265). -/
theorem haltReturn_of_run {s : State} (h : s.entry = .run) : haltReturn s = deliver (.lastOutput s.last) s := by
  rw [haltReturn, h]

/-- `run_suspended` and `resume` return it within a Halted value (47_controller.md R267). -/
theorem haltReturn_of_runSuspended {s : State} (h : s.entry = .runSuspended) :
    haltReturn s = deliver (.suspension (.halted s.last)) s := by
  rw [haltReturn, h]

/-- Settles O23: Halt is the return of the entry point in progress, which changes the controller and the results. -/
theorem haltReturnsTheLastOutput : Obligations.HaltReturnsTheLastOutput := by
  refine fun s => ⟨fun hentry => ?suspended, fun hentry => ?run⟩ <;> rw [exec, execHalt]
  case suspended => rw [haltReturn_of_runSuspended hentry, deliver]
  case run => rw [haltReturn_of_run hentry, deliver]

end Sys2Proof.Machine
end

section
/-! The host's operations of an idle device (47_controller.md R262 to R270): what each answers, its arguments being
well typed. -/

namespace Sys2Proof.Machine

open Sys2Proof.Safety

theorem step_of_idle {s : State} (hc : s.ctl = .idle) : step s = hostStep s := by
  rw [step, hc]

theorem step_of_no_operation {s : State} (hc : s.ctl = .idle) (ho : s.hostOps = []) : step s = .next s := by
  rw [step_of_idle hc, hostStep, ho]

/-- A state that its step leaves as it is stays for ever. -/
theorem runSteps_of_step_eq_self {s : State} (h : step s = .next s) (k : Nat) : runSteps k s = .next s := by
  induction k with
  | zero => rfl
  | succ k ih => rw [runSteps, h]; exact ih

/-- Settles O43: each of the steps leaves the device as it is. -/
theorem idleDeviceKeepsItsState : Obligations.IdleDeviceKeepsItsState :=
  fun _ k hc ho => runSteps_of_step_eq_self (step_of_no_operation hc ho) k

/-- On a nonempty Memory an entry point starts execution (R262, R263). -/
theorem enter_of_nonempty {s : State} (h : s.mem.len ≠ 0) (n : Entry) (inputs : List Int) (last : Option Int) :
    enter n inputs last s = { s with inq := inputs, last := last, ctl := .exec, entry := n } := by
  rw [enter, if_neg h]

/-- A program without a cell comes before any step (R266). -/
theorem enter_of_empty {s : State} (h : s.mem.len = 0) (n : Entry) (inputs : List Int) (last : Option Int) :
    enter n inputs last s = raise ⟨.emptyProgram, none⟩ s := by
  rw [enter, if_pos h]

/-- An operation that starts an execution enters it with the queue and the last output it loads. -/
theorem hostPerform_of_startsWith {op : HostOp} {n : Entry} {inputs : List Int} {last : Option Int} (s : State)
    (h : StartsWith op n inputs last) : hostPerform op s = .next (enter n inputs last s) := by
  cases h <;> rfl

/-- Settles O36: the three entry points load and start alike. -/
theorem entryPointsStartExecution : Obligations.EntryPointsStartExecution := by
  intro s inputs output rest hc hlen hinputs houtput
  have hstart {op : HostOp} {n : Entry} {inputs : List Int} {last : Option Int} (ho : s.hostOps = op :: rest)
      (hw : op.wellTyped s.config.wordBits = true) (h : StartsWith op n inputs last) : step s = .next { s with
        hostOps := rest, inq := inputs, last := last, ctl := .exec, entry := n } := by
    rw [step_host hc ho hw, hostPerform_of_startsWith _ h,
      enter_of_nonempty (s := { s with hostOps := rest }) hlen]
  exact ⟨fun ho => hstart ho hinputs (.runSuspended inputs), fun ho => hstart ho hinputs (.run inputs),
    fun ho => hstart ho (Bool.and_eq_true_iff.mpr ⟨hinputs, houtput⟩) (.resume inputs output)⟩

/-- Settles O37: the three entry points meet the empty Memory alike. -/
theorem emptyProgramComesFirst : Obligations.EmptyProgramComesFirst := by
  intro s op rest hc hlen ho hw hentry
  obtain ⟨n, inputs, last, hstart⟩ : ∃ n inputs last, StartsWith op n inputs last := by
    rcases hentry with ⟨inputs, rfl⟩ | ⟨inputs, rfl⟩ | ⟨inputs, output, rfl⟩
    exacts [⟨_, _, _, .run inputs⟩, ⟨_, _, _, .runSuspended inputs⟩, ⟨_, _, _, .resume inputs output⟩]
  rw [step_host hc ho hw, hostPerform_of_startsWith _ hstart,
    enter_of_empty (s := { s with hostOps := rest }) hlen, raise, deliver, ← hc]

/-- Settles O38: the value is delivered as it was given. -/
theorem resumeOfHaltedIsANoOp : Obligations.ResumeOfHaltedIsANoOp := by
  intro s output rest hc ho hw
  rw [step_host hc ho hw, hostPerform, hostResume, deliver, ← hc]

/-- The host's read in bounds (R269). -/
theorem hostPerform_read {a : Int} {s : State} (hb : s.mem.inBounds a = true) :
    hostPerform (.read a) s = .next (deliver (.word (s.mem.get a.toNat)) s) := by
  rw [hostPerform, hostRead, memRead_eq_ok.mpr ⟨hb, rfl⟩, andThen_ok, finish_ok]

/-- A read or write out of bounds raises its address (R269, R270). -/
theorem hostPerform_of_outOfBounds {op : HostOp} {a : Int} {s : State} (hop : op = .read a ∨ ∃ v, op = .write a v)
    (hb : ¬ s.mem.inBounds a = true) : hostPerform op s = .next (raise ⟨.outOfBounds, some a⟩ s) := by
  rcases hop with rfl | ⟨v, rfl⟩
  · rw [hostPerform, hostRead, memRead_eq_error.mpr ⟨hb, rfl⟩, andThen_error, finish_error]
  · rw [hostPerform, hostWrite, memWrite_eq_error.mpr ⟨hb, rfl⟩, andThen_error, finish_error]

/-- Settles O39: in bounds by the access, out of bounds by its raise. -/
theorem hostReadAndWrite : Obligations.HostReadAndWrite := by
  intro s a v rest hc ha hv
  have hraise {op : HostOp} (ho : s.hostOps = op :: rest) (hw : op.wellTyped s.config.wordBits = true)
      (hop : op = .read a ∨ ∃ v, op = .write a v) (hb : ¬ s.mem.inBounds a) : step s = .next { s with
        hostOps := rest, hostResults := s.hostResults ++ [.error ⟨.outOfBounds, some s.pc, some a⟩] } := by
    rw [step_host hc ho hw, hostPerform_of_outOfBounds (s := { s with hostOps := rest }) hop hb, raise, deliver,
      ← hc]
  have hwrite : (HostOp.write a v).wellTyped s.config.wordBits = true := Bool.and_eq_true_iff.mpr ⟨ha, hv⟩
  refine ⟨fun ho => ⟨fun hb => ?read, hraise ho ha (.inl rfl)⟩,
    fun ho => ⟨fun hb => ?write, hraise ho hwrite (.inr ⟨v, rfl⟩)⟩⟩
  case read => rw [step_host hc ho ha, hostPerform_read (s := { s with hostOps := rest }) hb, deliver, ← hc]
  case write =>
    rw [step_host hc ho hwrite, hostPerform_write (s := { s with hostOps := rest }) hb, storeWord, deliver, ← hc]

/-- Only an argument's type makes a performed operation ill typed: what it can refuse is a length (R343). -/
theorem hostPerform_ne_illTyped (op : HostOp) (s : State) : hostPerform op s ≠ .refused .illTypedHostOperation := by
  have hfits (m : Memory) (t : State) : ifFits m s t ≠ .refused .illTypedHostOperation := by
    unfold ifFits
    split <;> simp
  have hfinish (x : Except Raise State) : finish s x ≠ .refused .illTypedHostOperation := by
    cases x <;> simp
  cases op with
  | construct text =>
    rw [hostPerform, hostConstruct]
    split
    · simp
    · exact hfits _ _
  | constructEmpty capacity => exact hfits _ _
  | mimic other => exact hfits _ _
  | read a => exact hfinish _
  | write a v => exact hfinish _
  | run inputs => exact nofun
  | runSuspended inputs => exact nofun
  | resume x => cases x <;> exact nofun

theorem step_eq_illTyped_iff {s : State} {op : HostOp} {rest : List HostOp} (hc : s.ctl = .idle)
    (ho : s.hostOps = op :: rest) :
    step s = .refused .illTypedHostOperation ↔ ¬ op.wellTyped s.config.wordBits = true := by
  refine ⟨fun h hw => ?_, step_host_illTyped hc ho⟩
  rw [step_host hc ho hw] at h
  exact hostPerform_ne_illTyped _ _ h

/-- Settles O48: the arguments of each operation are Words exactly if it is well typed. -/
theorem illTypedHostOperationsAreRefused : Obligations.IllTypedHostOperationsAreRefused := by
  intro s op rest hc ho
  rw [step_eq_illTyped_iff hc ho]
  cases op with
  | resume x =>
    cases x with
    | running inputs output => simp [HostOp.wellTyped, allWords, -not_and, not_and_or, or_comm]
    | halted output => cases output <;> simp [HostOp.wellTyped, allWords]
  | construct | constructEmpty | mimic | read | write | run | runSuspended => simp [HostOp.wellTyped, allWords]

end Sys2Proof.Machine
end

section
/-! Executions that go on: a jump to itself for ever (47_controller.md R273), and an Input that is retried after its
EmptyInput (60_exceptions.md R306). -/

namespace Sys2Proof.Machine

open Sys2Proof.Safety

/-- `JT #c, #t` is three Words (30_encoding.md R94). -/
theorem encode_jumpIfTrue_imm_imm (c t : Int) : encode (.jumpIfTrue (.imm c) (.imm t)) = [1105, c, t] := by
  simp [encode, Instr.opcode, Opcode.number, Instr.operands, modeSum, Mode.digit]

/-- A jump to its own first cell leaves the device as it is. -/
theorem step_of_jump_to_itself {s : State} (hc : s.ctl = .exec) (hlen : s.pc + 2 < s.mem.len)
    (hword : s.mem.get s.pc = 1105) (hcond : s.mem.get (s.pc + 1) ≠ 0) (htarget : s.mem.get (s.pc + 2) = s.pc) :
    step s = .next s := by
  have hplaced : step s = exec (.jumpIfTrue (.imm (s.mem.get (s.pc + 1))) (.imm s.pc)) s := by
    refine stepRunsThePlacedInstruction s _ hc fun k w hw => ?_
    rw [encode_jumpIfTrue_imm_imm] at hw
    match k, hw with
    | 0, hw => exact ⟨by omega, hword.trans (Option.some.inj hw)⟩
    | 1, hw => exact ⟨by omega, Option.some.inj hw⟩
    | 2, hw => exact ⟨hlen, htarget.trans (Option.some.inj hw)⟩
  have hb : s.mem.inBounds s.pc = true := Memory.inBounds_iff.mpr ⟨by omega, by omega⟩
  obtain ⟨-, -, hjump⟩ := jumpIfTrueJumpsOnNonzero (.imm (s.mem.get (s.pc + 1))) (.imm s.pc) s
  obtain ⟨htaken, -, -⟩ := hjump _ _ rfl rfl
  rw [hplaced, htaken hcond hb, Int.toNat_natCast]

/-- Settles O52: each of the steps leaves the device as it is, in execution. -/
theorem jumpToItselfNeverReturns : Obligations.JumpToItselfNeverReturns :=
  fun s hc hlen hword hcond htarget k =>
    ⟨s, runSteps_of_step_eq_self (step_of_jump_to_itself hc hlen hword hcond htarget) k, hc⟩

theorem runSteps_succ {s t : State} (h : step s = .next t) (k : Nat) : runSteps (k + 1) s = runSteps k t := by
  rw [runSteps, h]

/-- An Input with a writable destination and a Word in the queue, as a step (42_io.md R160). -/
theorem step_of_input {s : State} {dst : Operand} {ws vs : List Int} {v : Int} (hc : s.ctl = .exec)
    (hd : decode (fetchWords s) = .ok (.input dst, ws)) (hm : dst.mode ≠ .immediate)
    (hb : s.mem.inBounds (effectiveAddress dst s)) (hq : s.inq = v :: vs) : step s = .next { s with
      mem := s.mem.set (effectiveAddress dst s).toNat v, inq := vs, pc := s.pc + 2 } := by
  obtain ⟨-, -, -, hpop⟩ := inputPopsIntoMemory dst s
  rw [step_of_decode hc hd, hpop v vs hm hb hq]

/-- Settles O51: the error entry leaves pc at the Input, the resume fills the queue, and the Input pops it. -/
theorem retryAfterEmptyInputCompletes : Obligations.RetryAfterEmptyInputCompletes := by
  intro s dst ws v output vs hc hd hm hb hempty hinputs houtput
  have hlen : s.mem.len ≠ 0 := by
    have := Memory.decode_inside hd
    omega
  obtain ⟨-, -, hraise, -⟩ := inputPopsIntoMemory dst s
  refine ⟨raise ⟨.emptyInput, none⟩ s, (step_of_decode hc hd).trans (hraise hm hb hempty), rfl, ?_⟩
  obtain ⟨-, -, hresume⟩ := entryPointsStartExecution
    { raise ⟨.emptyInput, none⟩ s with hostOps := [.resume (.running (v :: vs) output)] } (v :: vs) output [] rfl hlen
    hinputs houtput
  rw [runSteps_succ (hresume rfl)]
  refine runSteps_succ (step_of_input (ws := ws) rfl ?_ hm ?_ rfl) 0
  exacts [hd, hb]

end Sys2Proof.Machine
end

section
/-! Construction (70_reset_and_hazards.md R340 to R345): the new device, the refusal of one that is too long, and the
ParseError, which keeps the device the host had (log 12). -/

namespace Sys2Proof.Machine

open Sys2Proof.Safety

/-- An empty Memory under legal parameters, with no input, output or result yet (R344, R345). -/
theorem inv_emptyMemory {c : Config} {n : Nat} (ops : List HostOp) (hc : c.valid) (hn : n ≤ c.maxLen) :
    Inv (State.fresh c (emptyMemory n) ops []) where
  configValid := hc
  memCanonical := emptyMemory_wf n
  memWords := rfl
  lenFits := hn
  pcInRange := Nat.zero_le n
  rbWord := (zero_one_words hc).1
  inqWords := rfl
  lastWord := rfl
  resultsWords := rfl

theorem configDefault_valid : Config.default.valid := by
  simp only [Config.valid, Config.default, wmax, wordHalf]
  omega

/-- Settles O35: the reset state is the empty device of no cells. -/
theorem resetHasTheInvariant : Obligations.ResetHasTheInvariant :=
  ⟨inv_emptyMemory [] configDefault_valid (Nat.zero_le _), fun _ _ ops hc hn => inv_emptyMemory ops hc hn⟩

theorem ifFits_of_le {m : Memory} {s : State} (h : m.len ≤ s.config.maxLen) (t : State) : ifFits m s t = .next t := by
  rw [ifFits, if_pos h]

theorem ifFits_of_lt {m : Memory} {s : State} (h : s.config.maxLen < m.len) (t : State) :
    ifFits m s t = .refused .exceedsMaxLen := by
  rw [ifFits, if_neg (not_le.mpr h)]

theorem memRead_natCast {t : State} {i : Nat} (h : i < t.mem.len) : memRead (i : Int) t = .ok (t.mem.get i) :=
  memRead_eq_ok.mpr ⟨Memory.inBounds_iff.mpr ⟨by omega, by omega⟩, rfl⟩

/-- Settles O44: every cell of the empty Memory is unlisted. -/
theorem constructEmptyMakesZeroCells : Obligations.ConstructEmptyMakesZeroCells := by
  intro s n rest hc ho hn
  refine ⟨_, (step_host hc ho rfl).trans (ifFits_of_le hn _), rfl, fun a h0 ha => ?_, rfl, rfl, rfl, rfl, rfl, rfl⟩
  exact memRead_eq_ok.mpr ⟨Memory.inBounds_iff.mpr ⟨h0, ha⟩, rfl⟩

/-- A text whose tokens are all valid parses to their values (R340). -/
theorem parseSource_eq_ok {bits : Nat} {text : List Char} {ws : List Int} :
    parseSource bits text = .ok ws ↔ (splitCommas (trimText text)).map (tokenValue bits) = ws.map some :=
  parseTokens_eq_ok

/-- `construct` of a text that parses is the construction of its Memory. -/
theorem hostPerform_construct {s : State} {text : List Char} {ws : List Int}
    (h : parseSource s.config.wordBits text = .ok ws) : hostPerform (.construct text) s =
      ifFits (programMemory s.config.padCapacity ws) s (deliver .created
        (State.fresh s.config (programMemory s.config.padCapacity ws) s.hostOps s.hostResults)) := by
  simp only [hostPerform, hostConstruct, h]

/-- The cells of a constructed program: its tokens' values, then padding of 0 (R340, R342). -/
theorem programMemory_get (pad : Option Nat) (ws : List Int) (i : Nat) :
    (programMemory pad ws).get i = (ws[i]?).getD 0 := by
  have h := lookupCell_cellsFrom 0 i ws
  rwa [Nat.zero_add] at h

/-- Settles O45: the constructed Memory holds each value at its index and 0 behind them. -/
theorem constructPlacesAndPads : Obligations.ConstructPlacesAndPads := by
  intro s text ws rest hc ho htokens hfits
  have hparse : parseSource s.config.wordBits text = .ok ws := parseSource_eq_ok.mpr htokens
  have hstep := (step_host hc ho rfl).trans (hostPerform_construct (s := { s with hostOps := rest }) hparse)
  refine ⟨_, hstep.trans (ifFits_of_le hfits _), fun hpad => ?unpadded, fun c hpad => ?padded, fun i v hv => ?token,
    fun i hi hlen => ?padding, rfl, rfl, rfl, rfl, rfl, rfl⟩
  case unpadded => exact congrArg (paddedLength · ws.length) hpad
  case padded => exact congrArg (paddedLength · ws.length) hpad
  case token =>
    have hi : i < ws.length := (List.getElem?_eq_some_iff.mp hv).1
    rw [memRead_natCast (hi.trans_le (le_paddedLength _ _))]
    exact congrArg Except.ok ((programMemory_get _ ws i).trans (by rw [hv, Option.getD_some]))
  case padding =>
    rw [memRead_natCast hlen]
    exact congrArg Except.ok ((programMemory_get _ ws i).trans (by rw [List.getElem?_eq_none hi, Option.getD_none]))

/-- The index a failing list of tokens reports is that of its first invalid token, counted from `n` (R340). -/
theorem parseTokens_of_first_invalid {bits i n : Nat} {tokens : List (List Char)} {t : List Char}
    (ht : tokens[i]? = some t) (hbad : tokenValue bits t = none)
    (hgood : ∀ j u, j < i → tokens[j]? = some u → tokenValue bits u ≠ none) :
    parseTokens bits n tokens = .error (n + i) := by
  induction tokens generalizing i n with
  | nil => cases ht
  | cons u us ih =>
    cases i with
    | zero =>
      cases ht
      simp only [parseTokens, hbad, Nat.add_zero]
    | succ i =>
      obtain ⟨v, hv⟩ := Option.ne_none_iff_exists'.mp (hgood 0 u (Nat.succ_pos i) rfl)
      have hrest : parseTokens bits (n + 1) us = .error (n + 1 + i) :=
        ih ht fun j w hj hw => hgood (j + 1) w (Nat.succ_lt_succ hj) hw
      simp only [parseTokens, hv, hrest, Nat.add_right_comm, Nat.add_assoc]

/-- Settles O46: the parse stops at the first invalid token, and the device is only handed the error record. -/
theorem parseErrorNamesTheFirstBadToken : Obligations.ParseErrorNamesTheFirstBadToken := by
  intro s text rest i t hc ho ht hbad hgood
  have hparse : parseSource s.config.wordBits text = .error i := by
    rw [parseSource, parseTokens_of_first_invalid ht hbad hgood, Nat.zero_add]
  rw [step_host hc ho rfl, hostPerform]
  simp only [hostConstruct, hparse, deliver, ← hc]

/-- Settles O47: each of the three asks whether its Memory fits. -/
theorem oversizedConstructionIsRefused : Obligations.OversizedConstructionIsRefused := by
  intro s rest hc
  refine ⟨fun text ws ho htokens hlen => ?construct, fun n ho hlen => ?constructEmpty,
    fun m ho hwf hwords hlen => ?mimic⟩
  case construct =>
    have hparse : parseSource s.config.wordBits text = .ok ws := parseSource_eq_ok.mpr htokens
    rw [step_host hc ho rfl, hostPerform_construct (s := { s with hostOps := rest }) hparse]
    exact ifFits_of_lt hlen _
  case constructEmpty => exact (step_host hc ho rfl).trans (ifFits_of_lt hlen _)
  case mimic =>
    have hw : (HostOp.mimic m).wellTyped s.config.wordBits = true := Bool.and_eq_true_iff.mpr ⟨hwf, hwords⟩
    exact (step_host hc ho hw).trans (ifFits_of_lt hlen _)

end Sys2Proof.Machine
end

section
/-! The host's side of a device: the entry kind, the operations still to come and the results. No step of an executing
device looks at them but to return (47_controller.md R267), so a step of the device under another host's side is the
same step. -/

namespace Sys2Proof.Machine

open Sys2Proof.Safety

/-- The device under another host's side. -/
def State.setHost (n : Entry) (ops : List HostOp) (results : List HostResult) (s : State) : State :=
  { s with entry := n, hostOps := ops, hostResults := results }

/-- The commit of an Output that emits `v` (42_io.md R161), before it suspends. -/
def commitOutput (v : Int) (s : State) : State := advance 2 { s with last := some v }

/-- A step that neither returns nor suspends leaves the controller and the host's side as they are. -/
structure SameHostSide (s t : State) : Prop where
  ctl : t.ctl = s.ctl
  entry : t.entry = s.entry
  hostOps : t.hostOps = s.hostOps
  hostResults : t.hostResults = s.hostResults

theorem emitted_eq_some {s : State} {v : Int} : emitted s = some v ↔
    s.ctl = .exec ∧ ∃ a rest, decode (fetchWords s) = .ok (.output a, rest) ∧ readOperand a s = .ok v := by
  unfold emitted
  constructor
  · intro h
    split at h
    · split at h
      · cases h; exact ⟨‹_›, _, _, ‹_›, ‹_›⟩
      · cases h
    · cases h
  · rintro ⟨hc, a, rest, hd, hv⟩
    simp only [hc, hd, hv]

/-- An Output that is about to emit commits and suspends. -/
theorem step_of_emitted {s : State} {v : Int} (h : emitted s = some v) :
    step s = .next (suspend v (commitOutput v s)) := by
  obtain ⟨hc, a, rest, hd, hv⟩ := emitted_eq_some.mp h
  rw [step_of_decode hc hd, exec_output_of_read hv, commitOutput]

/-- A step raises what the table of R122 names first, and nothing else. -/
theorem step_eq_raise_iff {s : State} {e : Raise} (hc : s.ctl = .exec) :
    step s = .next (raise e s) ↔ firstError s = some e := by
  obtain ⟨hraises, hgoes⟩ := firstApplicableErrorIsReported s hc
  refine ⟨fun h => ?_, hraises e⟩
  cases hf : firstError s with
  | none =>
    obtain ⟨t, ht, hne⟩ := hgoes hf
    rw [h, Host.Outcome.next.injEq] at ht
    exact absurd ⟨_, by rw [← ht]; rfl⟩ hne
  | some e' =>
    have hsame := h.symm.trans (hraises e' hf)
    rw [Host.Outcome.next.injEq] at hsame
    have hrecord := congrArg State.hostResults hsame
    obtain ⟨kind, addr⟩ := e
    obtain ⟨kind', addr'⟩ := e'
    simpa [eq_comm] using hrecord

/-- The ways a step of the executing device `s` goes on, to `t`, and where the same device under another host's side
then goes. -/
inductive SameStep (s : State) (n : Entry) (ops : List HostOp) (results : List HostResult) :
    State → State → Prop where
  | raised (e : Raise) : emitted s = none →
      SameStep s n ops results (raise e s) (raise e (s.setHost n ops results))
  | silent {t : State} : emitted s = none → SameHostSide s t → SameStep s n ops results t (t.setHost n ops results)
  | suspended {v : Int} : emitted s = some v → SameStep s n ops results (suspend v (commitOutput v s))
      (suspend v (commitOutput v (s.setHost n ops results)))
  | halted : emitted s = none → SameStep s n ops results (haltReturn s) (haltReturn (s.setHost n ops results))

/-- The four storing F3 instructions commit under any host's side. -/
theorem exec_setHost_of_stored {s : State} {a b dst : Operand} {x y v : Int} {i : Instr} {n : Entry}
    {ops : List HostOp} {results : List HostResult} (hm : dst.mode ≠ .immediate) (hx : readOperand a s = .ok x)
    (hy : readOperand b s = .ok y) (hb : s.mem.inBounds (effectiveAddress dst s))
    (hv : StoresResult s a b dst x y i v) : exec i (s.setHost n ops results) =
      .next ((advance 4 (storeWord (effectiveAddress dst s) v s)).setHost n ops results) := by
  have hstore {f : Int → Int → Except Raise Int} (hf : f x y = .ok v) := congrArg (finish (s.setHost n ops results))
    (storeBinary_eq_ok (s := s.setHost n ops results).mpr ⟨hm, x, y, v, hx, hy, hb, hf, rfl⟩)
  cases hv with
  | add hr | multiply hr => exact hstore (checkWord_eq_ok.mpr ⟨hr, rfl⟩)
  | lessThan | equals => exact hstore rfl

/-- An instruction that neither raises nor emits does the same under another host's side. -/
theorem exec_setHost_of_result {s t : State} {i : Instr} {n : Entry} {ops : List HostOp} {results : List HostResult}
    (he : emitted s = none) (hi : ∀ a v, i = .output a → readOperand a s ≠ .ok v) (h : ExecResult s i t)
    (hraise : ∀ e, t = raise e s → exec i (s.setHost n ops results) = .next (raise e (s.setHost n ops results))) :
    ∃ u, exec i (s.setHost n ops results) = .next u ∧ SameStep s n ops results t u := by
  cases h with
  | raised _ e => exact ⟨_, hraise e rfl, .raised e he⟩
  | stored hm hx hy hb hv => exact ⟨_, exec_setHost_of_stored hm hx hy hb hv, .silent he ⟨rfl, rfl, rfl, rfl⟩⟩
  | @popped dst v rest hm hb hq =>
    obtain ⟨-, -, -, hpop⟩ := inputPopsIntoMemory dst (s.setHost n ops results)
    exact ⟨_, hpop v rest hm hb hq, .silent he ⟨rfl, rfl, rfl, rfl⟩⟩
  | emitted hv => exact absurd hv (hi _ _ rfl)
  | @jumped cond target c d _ hp hc hd hb =>
    have hjump {p : Int → Bool} (hp : p c = true) := congrArg (finish (s.setHost n ops results))
      (jumpWhen_eq_ok (s := s.setHost n ops results).mpr ⟨c, d, hc, hd, .inl ⟨hp, hb, rfl⟩⟩)
    refine ⟨_, ?_, .silent he ⟨rfl, rfl, rfl, rfl⟩⟩
    rcases hp with ⟨rfl, hp⟩ | ⟨rfl, hp⟩ <;> exact hjump (decide_eq_true hp)
  | @passed cond target c d _ hp hc hd =>
    have hpass {p : Int → Bool} (hp : p c = false) := congrArg (finish (s.setHost n ops results))
      (jumpWhen_eq_ok (s := s.setHost n ops results).mpr ⟨c, d, hc, hd, .inr ⟨hp, rfl⟩⟩)
    refine ⟨_, ?_, .silent he ⟨rfl, rfl, rfl, rfl⟩⟩
    rcases hp with ⟨rfl, hp⟩ | ⟨rfl, hp⟩
    · exact hpass (decide_eq_false (not_not.mpr hp))
    · exact hpass (decide_eq_false hp)
  | @adjusted a v hv hr =>
    refine ⟨_, ?_, .silent he ⟨rfl, rfl, rfl, rfl⟩⟩
    rw [exec_adjustRelativeBase_of_read (s := s.setHost n ops results) hv]
    exact (finish_checkWord _ (s.setHost n ops results) _).1 hr
  | halted => exact ⟨_, rfl, .halted he⟩

/-- An executing device's step under another host's side is the same step. -/
theorem step_setHost {s t : State} (n : Entry) (ops : List HostOp) (results : List HostResult) (hc : s.ctl = .exec)
    (h : step s = .next t) : ∃ u, step (s.setHost n ops results) = .next u ∧ SameStep s n ops results t u := by
  have hraise {e : Raise} (ht : t = raise e s) :
      step (s.setHost n ops results) = .next (raise e (s.setHost n ops results)) := by
    have hfirst : firstError s = some e := (step_eq_raise_iff hc).mp (ht ▸ h)
    exact (step_eq_raise_iff (s := s.setHost n ops results) hc).mpr hfirst
  cases he : emitted s with
  | some v =>
    rw [step_of_emitted he, Host.Outcome.next.injEq] at h
    subst h
    exact ⟨_, step_of_emitted (s := s.setHost n ops results) he, .suspended he⟩
  | none =>
    cases step_result h with
    | notDecoded _ _ ht => exact ⟨_, hraise ht, ht ▸ .raised _ he⟩
    | @executed i rest _ hd hexec =>
      have hstep : step (s.setHost n ops results) = exec i (s.setHost n ops results) := step_of_decode hc hd
      rw [hstep] at hraise ⊢
      refine exec_setHost_of_result he (fun a v hi hv => ?_) (exec_result hexec) fun e => hraise
      rw [emitted_eq_some.mpr ⟨hc, a, rest, hi ▸ hd, hv⟩] at he
      cases he
    | rested hi => rw [hc] at hi; cases hi
    | performed hi => rw [hc] at hi; cases hi

end Sys2Proof.Machine
end

section
/-! `run` against the chain of `run_suspended` and `resume` (47_controller.md R263, R265, R275): a simulation, in which
each step of the one is a step of the other and the resume of the Running value it returned, if any. -/

namespace Sys2Proof.Safety

open Sys2Proof.Machine

theorem runningOutputs_append (rs rs' : List HostResult) :
    runningOutputs (rs ++ rs') = runningOutputs rs ++ runningOutputs rs' :=
  List.filterMap_append

/-- No Running value returned by this step, no resume. -/
theorem resumedStep_of_not_running {s t : State} (h : step s = .next t) (hr : s.ctl = .exec → t.ctl = .idle →
    ∀ q a, t.hostResults.getLast? ≠ some (.suspension (.running q a))) : resumedStep s = .next t := by
  simp only [resumedStep, h]
  split
  · exact absurd ‹_› (hr ‹_› ‹_› _ _)
  · rfl

/-- An Output under `run_suspended`, with the Running value it returned resumed, is the Output's commit: the queue, the
last output and EXEC are as they were (log 11). -/
theorem resumedStep_of_emitted {s : State} {v : Int} (h : emitted s = some v) (hn : s.entry = .runSuspended) :
    resumedStep s = .next { commitOutput v s with
      hostResults := s.hostResults ++ [.suspension (.running s.inq v)] } := by
  obtain ⟨hc, a, rest, hd, -⟩ := emitted_eq_some.mp h
  have hlen : s.mem.len ≠ 0 := by
    have := Memory.decode_inside hd
    omega
  have hstep := step_of_emitted h
  rw [suspend_of_runSuspended (s := commitOutput v s) hn] at hstep
  simp only [resumedStep, hstep, hc, deliver_ctl, deliver_hostResults, List.getLast?_concat, hostResume]
  rw [enter_of_nonempty (s := deliver _ (commitOutput v s)) hlen, ← hc, ← hn]
  rfl

/-- The two ways to run a program return the same last output, or the same error, as their last result. -/
structure SameEnd (runResults resumeResults : List HostResult) : Prop where
  halted : ∀ v, runResults.getLast? = some (.lastOutput v) ↔
    resumeResults.getLast? = some (.suspension (.halted v))
  error : ∀ e, runResults.getLast? = some (.error e) ↔ resumeResults.getLast? = some (.error e)

theorem sameEnd_error (rs us : List HostResult) (e : ErrorRecord) : SameEnd (rs ++ [.error e]) (us ++ [.error e]) := by
  constructor <;> simp

theorem sameEnd_halted (rs us : List HostResult) (v : Option Int) :
    SameEnd (rs ++ [.lastOutput v]) (us ++ [.suspension (.halted v)]) := by
  constructor <;> simp

/-- The simulation: `u` is the device under `run_suspended` and resumes where `s` is the device under `run`; they differ
in the host's side only, and after the end they have returned the same. -/
structure Resumes (s u : State) : Prop where
  entry : s.entry = .run
  hostOps : s.hostOps = []
  device : u = s.setHost .runSuspended [] u.hostResults
  ending : s.ctl = .idle → SameEnd s.hostResults u.hostResults

/-- One step of the simulation, and the output it emits. -/
theorem Resumes.step {s t u : State} (hs : Resumes s u) (h : Machine.step s = .next t) :
    ∃ w, resumedStep u = .next w ∧ Resumes t w ∧
      runningOutputs w.hostResults = runningOutputs u.hostResults ++ (emitted s).toList := by
  obtain ⟨hentry, hops, hdevice, hending⟩ := hs
  generalize u.hostResults = us at hdevice hending ⊢
  subst hdevice
  cases hc : s.ctl with
  | idle =>
    have hemitted : emitted s = none := by simp only [emitted, hc]
    rw [step_of_no_operation hc hops, Host.Outcome.next.injEq] at h
    subst h
    refine ⟨_, resumedStep_of_not_running (step_of_no_operation hc rfl) fun he => ?_, ⟨hentry, hops, rfl, hending⟩, ?_⟩
    · exact absurd (hc.symm.trans he) nofun
    · rw [hemitted, Option.toList_none, List.append_nil]; rfl
  | exec =>
    obtain ⟨w, hw, hsame⟩ := step_setHost .runSuspended [] us hc h
    cases hsame with
    | raised e he =>
      refine ⟨_, resumedStep_of_not_running hw fun _ _ q a => ?_,
        ⟨hentry, hops, rfl, fun _ => sameEnd_error _ _ _⟩, ?_⟩
      · simp
      · rw [he, raise_hostResults, runningOutputs_append]; rfl
    | silent he hside =>
      have hbusy : t.ctl ≠ .idle := by rw [hside.ctl, hc]; nofun
      refine ⟨_, resumedStep_of_not_running hw fun _ hidle => absurd hidle hbusy,
        ⟨hside.entry.trans hentry, hside.hostOps.trans hops, rfl, fun hidle => absurd hidle hbusy⟩, ?_⟩
      rw [he, Option.toList_none, List.append_nil]; rfl
    | @suspended v he =>
      rw [suspend_of_run (s := commitOutput v s) hentry]
      refine ⟨_, resumedStep_of_emitted (s := s.setHost .runSuspended [] us) he rfl,
        ⟨hentry, hops, rfl, fun hidle => ?_⟩, ?_⟩
      · exact absurd (hc.symm.trans hidle) nofun
      · rw [he]
        exact runningOutputs_append _ _
    | halted he =>
      rw [haltReturn_of_run hentry]
      rw [haltReturn_of_runSuspended rfl] at hw
      refine ⟨_, resumedStep_of_not_running hw fun _ _ q a => ?_,
        ⟨hentry, hops, rfl, fun _ => sameEnd_halted _ _ _⟩, ?_⟩
      · simp
      · rw [he, deliver_hostResults, runningOutputs_append]; rfl

/-- The simulation over any number of steps. -/
theorem Resumes.steps {k : Nat} {s t u : State} (hs : Resumes s u) (h : runSteps k s = .next t) :
    ∃ w, resumedSteps k u = .next w ∧ Resumes t w ∧
      runningOutputs w.hostResults = runningOutputs u.hostResults ++ outputsOf k s := by
  induction k generalizing s u with
  | zero =>
    rw [runSteps, Host.Outcome.next.injEq] at h
    exact ⟨u, rfl, h ▸ hs, (List.append_nil _).symm⟩
  | succ k ih =>
    rw [runSteps] at h
    split at h
    · rename_i s' hstep
      obtain ⟨u', hu', hs', hout⟩ := hs.step hstep
      obtain ⟨w, hw, ht, houts⟩ := ih hs' h
      refine ⟨w, ?_, ht, ?_⟩
      · rw [resumedSteps, hu']; exact hw
      · rw [houts, hout, outputsOf, hstep, List.append_assoc]
    · cases h
    · cases h

/-- Settles O53: by the simulation, which holds at the start because `s` executes. -/
theorem runEqualsSuspendAndResume : Obligations.RunEqualsSuspendAndResume := by
  intro k s t hc hentry hops h
  have hstart : Resumes s { s with entry := .runSuspended } := by
    refine ⟨hentry, hops, ?_, fun hidle => absurd (hc.symm.trans hidle) nofun⟩
    rw [State.setHost, ← hops]
  obtain ⟨u, hu, ⟨-, -, hdevice, hending⟩, houts⟩ := hstart.steps h
  refine ⟨u, hu, ?_, ?_, ?_, ?_, ?_, ?_, houts, fun hidle => ⟨(hending hidle).halted, (hending hidle).error⟩⟩ <;>
    rw [hdevice] <;> rfl

end Sys2Proof.Safety
end

section
/-! No host operation overlaps an execution (47_controller.md R272, D18), and a call on an idle device is its step with
that operation next (log 15). -/

namespace Sys2Proof.Machine

open Sys2Proof.Safety

theorem suspend_setHostOps (v : Int) (ops : List HostOp) (s : State) :
    suspend v { s with hostOps := ops } = { suspend v s with hostOps := ops } := by
  rcases suspend_by_entry v s with ⟨hn, hs⟩ | ⟨hn, hs⟩ <;> rw [hs]
  · exact suspend_of_run (s := { s with hostOps := ops }) hn v
  · exact suspend_of_runSuspended (s := { s with hostOps := ops }) hn v

theorem haltReturn_setHostOps (ops : List HostOp) (s : State) :
    haltReturn { s with hostOps := ops } = { haltReturn s with hostOps := ops } := by
  rcases haltReturn_by_entry s with ⟨hn, hs⟩ | ⟨hn, hs⟩ <;> rw [hs]
  · exact haltReturn_of_run (s := { s with hostOps := ops }) hn
  · exact haltReturn_of_runSuspended (s := { s with hostOps := ops }) hn

/-- The operations still to come are passed through an executing device's step. -/
theorem step_setHostOps {s t : State} (ops : List HostOp) (hc : s.ctl = .exec) (h : step s = .next t) :
    step { s with hostOps := ops } = .next { t with hostOps := ops } := by
  obtain ⟨u, hu, hsame⟩ := step_setHost s.entry ops s.hostResults hc h
  refine Eq.trans hu (congrArg Host.Outcome.next ?_)
  cases hsame with
  | raised => rfl
  | silent _ hside => rw [State.setHost, ← hside.entry, ← hside.hostResults]
  | suspended => exact suspend_setHostOps _ ops (commitOutput _ s)
  | halted => exact haltReturn_setHostOps ops s

theorem step_hostOps {s t : State} (hc : s.ctl = .exec) (h : step s = .next t) : t.hostOps = s.hostOps := by
  have ht := step_setHostOps s.hostOps hc h
  rw [h, Host.Outcome.next.injEq] at ht
  rw [ht]

theorem System.hasIdle_iff_idleDeviceHas {sys : System} {m : Memory} :
    sys.hasIdle m = true ↔ IdleDeviceHas sys m := by
  rw [System.hasIdle_iff]
  constructor
  · rintro ⟨s, hs, hidle⟩
    obtain ⟨j, hj⟩ := List.mem_iff_getElem?.mp hs
    exact ⟨j, s, hj, hidle⟩
  · rintro ⟨j, s, hj, hidle⟩
    exact ⟨s, List.mem_of_getElem? hj, hidle⟩

section Devices

variable {sys : System} {k j : Nat} {s other : State}

theorem systemCall_of_exec (hk : sys[k]? = some s) (hc : s.ctl = .exec) (op : HostOp) :
    systemCall k op sys = .refused .instanceExecuting := by
  simp only [systemCall, hk, hc]

/-- A `mimic` by or of an executing device is refused (R272). -/
theorem systemMimic_of_exec (hk : sys[k]? = some s) (hj : sys[j]? = some other)
    (hc : s.ctl = .exec ∨ other.ctl = .exec) : systemMimic k j sys = .refused .instanceExecuting := by
  cases ho : other.ctl with
  | exec => simp only [systemMimic, hj, ho]
  | idle =>
    have hs : s.ctl = .exec := hc.resolve_right fun h => absurd (ho.symm.trans h) nofun
    simp only [systemMimic, hj, ho, systemCall_of_exec hk hs]

/-- A `mimic` of a Memory that no idle device has is refused, called or taken from the device's list (log 15). -/
theorem systemCall_of_not_admitted {op : HostOp} (hk : sys[k]? = some s) (hc : s.ctl = .idle)
    (ha : ¬ sys.admits op = true) : systemCall k op sys = .refused .noSuchInstance := by
  simp only [systemCall, hk, hc, if_neg ha]

theorem systemStep_of_not_admitted {op : HostOp} (hk : sys[k]? = some s) (ho : s.nextOp = some op)
    (ha : ¬ sys.admits op = true) : systemStep k sys = .refused .noSuchInstance := by
  simp only [systemStep, hk, ho, Option.all_some, if_neg ha]

end Devices

theorem nextOp_eq_some {s : State} {op : HostOp} :
    s.nextOp = some op ↔ s.ctl = .idle ∧ ∃ rest, s.hostOps = op :: rest := by
  unfold State.nextOp
  cases s.ctl <;> simp [List.head?_eq_some_iff]

/-- The step of an idle device that finds an operation next is the call of it. -/
theorem step_eq_hostCall {s : State} (hc : s.ctl = .idle) (op : HostOp) :
    step { s with hostOps := op :: s.hostOps } = hostCall op s :=
  step_of_idle (s := { s with hostOps := op :: s.hostOps }) hc

/-- Settles O42: the step by the host's side it does not look at, the system by what it admits. -/
theorem hostOperationsNeverOverlapExecution : Obligations.HostOperationsNeverOverlapExecution := by
  refine ⟨fun s t ops hc h => ⟨step_hostOps hc h, step_setHostOps ops hc h⟩, fun sys k s hk => ⟨fun hc => ?executing,
    fun hc m hm => ?unknown, fun hc op t hop h => ?call, fun t hop h => ?step⟩⟩
  case executing =>
    exact ⟨systemCall_of_exec hk hc, fun j other hj =>
      ⟨systemMimic_of_exec hk hj (.inl hc), systemMimic_of_exec hj hk (.inr hc)⟩⟩
  case unknown =>
    have ha : ¬ sys.admits (.mimic m) = true := mt System.hasIdle_iff_idleDeviceHas.mp hm
    exact ⟨systemCall_of_not_admitted hk hc ha,
      fun rest ho => systemStep_of_not_admitted hk (nextOp_eq_some.mpr ⟨hc, rest, ho⟩) ha⟩
  case call =>
    have ha : sys.admits op = true :=
      System.admits_iff.mpr fun m hm => System.hasIdle_iff_idleDeviceHas.mpr (hop m hm)
    exact systemCall_eq_next.mpr ⟨ha, s, t, hk, hc, (step_eq_hostCall hc op).symm.trans h, rfl⟩
  case step =>
    refine (systemStep_eq_next hk).mpr ⟨fun op hnext => System.admits_iff.mpr fun m hm => ?_, t, h, rfl⟩
    obtain ⟨hc, rest, ho⟩ := nextOp_eq_some.mp hnext
    exact System.hasIdle_iff_idleDeviceHas.mpr (hop hc m rest (hm ▸ ho))

/-- Settles O40: the copied Memory is an idle device's, well typed and fits, so the call is admitted and performed. -/
theorem mimicCopiesTheOtherDevice : Obligations.MimicCopiesTheOtherDevice := by
  intro sys k j s other hk hj hc hother hwf hwords hlen
  have ha : sys.admits (.mimic other.mem) = true :=
    System.hasIdle_iff_idleDeviceHas.mpr ⟨j, other, hj, hother, rfl⟩
  have hw : (HostOp.mimic other.mem).wellTyped s.config.wordBits = true := Bool.and_eq_true_iff.mpr ⟨hwf, hwords⟩
  have hcall : hostCall (.mimic other.mem) s =
      .next (deliver .nothing { s with mem := other.mem, pc := 0, rb := 0 }) := by
    rw [hostCall, if_pos hw]
    exact ifFits_eq_next.mpr ⟨hlen, rfl⟩
  refine ⟨_, systemMimic_eq_next.mpr ⟨other, hj, hother, systemCall_eq_next.mpr ⟨ha, s, _, hk, hc, hcall, rfl⟩⟩, ?_,
    fun m hm => List.getElem?_set_ne hm.symm⟩
  rw [List.getElem?_set_self (List.getElem?_eq_some_iff.mp hk).1, deliver, ← hc]

end Sys2Proof.Machine
end

section
/-! Program text (70_reset_and_hazards.md R340, R341, R97): the grammar of a token, and the tokens of a text. -/

namespace Sys2Proof.Machine

/-- The decimal digits are the characters from 0 to 9 (R341). -/
theorem digitValue_eq_some {c : Char} {d : Nat} :
    digitValue c = some d ↔ ('0' ≤ c ∧ c ≤ '9') ∧ d = c.toNat - 48 := by
  have hrange : 48 ≤ c.toNat ∧ c.toNat ≤ 57 ↔ '0' ≤ c ∧ c ≤ '9' := by
    simp only [Char.le_def, UInt32.le_iff_toNat_le]
    rfl
  rw [← hrange, digitValue, Option.ite_none_right_eq_some, Option.some.injEq, eq_comm (a := d)]

/-- The decimal value of a run of digits read after `acc`. -/
def decimalFrom (acc : Nat) (ds : List Char) : Nat := ds.foldl (fun n c => 10 * n + (c.toNat - 48)) acc

theorem digitsFrom_eq_some {acc n : Nat} {ds : List Char} :
    digitsFrom acc ds = some n ↔ (∀ c ∈ ds, '0' ≤ c ∧ c ≤ '9') ∧ n = decimalFrom acc ds := by
  induction ds generalizing acc with
  | nil => simp [digitsFrom, decimalFrom, eq_comm]
  | cons c rest ih =>
    rw [List.forall_mem_cons, decimalFrom, List.foldl_cons, ← decimalFrom]
    cases hd : digitValue c with
    | none =>
      have hbad : ¬ ('0' ≤ c ∧ c ≤ '9') := fun h => by rw [digitValue_eq_some.mpr ⟨h, rfl⟩] at hd; cases hd
      simp [digitsFrom, hd, hbad]
    | some d =>
      obtain ⟨hdigit, rfl⟩ := digitValue_eq_some.mp hd
      simp only [digitsFrom, hd, ih, hdigit, true_and, and_self]

/-- One or more digits, and their decimal value (R341). -/
theorem digitsValue_eq_some {ds : List Char} {n : Nat} : digitsValue ds = some n ↔
    ds ≠ [] ∧ (∀ c ∈ ds, '0' ≤ c ∧ c ≤ '9') ∧ n = decimalFrom 0 ds := by
  cases ds with
  | nil => simp [digitsValue]
  | cons c rest => rw [digitsValue, digitsFrom_eq_some]; simp

/-- An optional sign (R341). -/
def IsSign (sign : List Char) : Prop := sign = [] ∨ sign = ['+'] ∨ sign = ['-']

/-- A token's integer is that of its digits under its sign. -/
theorem tokenInteger_append {sign ds : List Char} {n : Nat} (hsign : IsSign sign) (hds : digitsValue ds = some n) :
    tokenInteger (sign ++ ds) = some ((if sign = ['-'] then -1 else 1) * (n : Int)) := by
  rcases hsign with rfl | rfl | rfl
  case inl =>
    obtain ⟨hne, hdigits, -⟩ := digitsValue_eq_some.mp hds
    obtain ⟨c, rest, rfl⟩ := List.exists_cons_of_ne_nil hne
    have hc := hdigits c List.mem_cons_self
    have hplus : c ≠ '+' := by rintro rfl; exact absurd hc (by decide)
    have hminus : c ≠ '-' := by rintro rfl; exact absurd hc (by decide)
    simp [tokenInteger, hplus, hminus, hds]
  case inr.inl => simp [tokenInteger, hds]
  case inr.inr => simp [tokenInteger, hds]

theorem exists_sign_of_tokenInteger {t : List Char} {v : Int} (h : tokenInteger t = some v) :
    ∃ sign ds, IsSign sign ∧ t = sign ++ ds ∧ ∃ n, digitsValue ds = some n := by
  cases t with
  | nil => cases h
  | cons c ds =>
    simp only [tokenInteger] at h
    split_ifs at h with hplus hminus
    · obtain ⟨n, hn, -⟩ := Option.map_eq_some_iff.mp h
      exact ⟨['+'], ds, .inr (.inl rfl), by rw [hplus]; rfl, n, hn⟩
    · obtain ⟨n, hn, -⟩ := Option.map_eq_some_iff.mp h
      exact ⟨['-'], ds, .inr (.inr rfl), by rw [hminus]; rfl, n, hn⟩
    · obtain ⟨n, hn, -⟩ := Option.map_eq_some_iff.mp h
      exact ⟨[], c :: ds, .inl rfl, rfl, n, hn⟩

theorem tokenInteger_eq_some {t : List Char} {v : Int} : tokenInteger t = some v ↔
    ∃ sign ds n, IsSign sign ∧ t = sign ++ ds ∧ digitsValue ds = some n ∧
      v = (if sign = ['-'] then -1 else 1) * (n : Int) := by
  constructor
  · intro h
    obtain ⟨sign, ds, hsign, rfl, n, hn⟩ := exists_sign_of_tokenInteger h
    rw [tokenInteger_append hsign hn, Option.some.injEq] at h
    exact ⟨sign, ds, n, hsign, rfl, hn, h.symm⟩
  · rintro ⟨sign, ds, n, hsign, rfl, hn, rfl⟩
    exact tokenInteger_append hsign hn

theorem tokenValue_eq_some {bits : Nat} {t : List Char} {v : Int} :
    tokenValue bits t = some v ↔ tokenInteger t = some v ∧ representable bits v = true := by
  unfold tokenValue
  cases tokenInteger t with
  | none => simp
  | some w =>
    simp only [Option.ite_none_right_eq_some, Option.some.injEq]
    constructor
    · rintro ⟨hw, rfl⟩; exact ⟨rfl, hw⟩
    · rintro ⟨rfl, hw⟩; exact ⟨hw, rfl⟩

/-- Settles O49: the sign in front, the digits behind it, and the check of their value. -/
theorem tokenGrammar : Obligations.TokenGrammar := by
  intro bits t v
  rw [tokenValue_eq_some, tokenInteger_eq_some]
  constructor
  · rintro ⟨⟨sign, ds, n, hsign, ht, hn, hv⟩, hword⟩
    obtain ⟨hne, hdigits, rfl⟩ := digitsValue_eq_some.mp hn
    exact ⟨sign, ds, hsign, ht, hne, hdigits, hv, hword⟩
  · rintro ⟨sign, ds, hsign, ht, hne, hdigits, hv, hword⟩
    exact ⟨⟨sign, ds, _, hsign, ht, digitsValue_eq_some.mpr ⟨hne, hdigits, rfl⟩, hv⟩, hword⟩

/-- Whitespace around a text that has none itself is trimmed (R340). -/
theorem trimText_append {before text after : List Char} (hbefore : ∀ c ∈ before, isSpace c = true)
    (hafter : ∀ c ∈ after, isSpace c = true) (htext : ∀ c ∈ text, isSpace c = false) :
    trimText (before ++ text ++ after) = text := by
  have hkept {l : List Char} (h : ∀ c ∈ l, isSpace c = false) : l.dropWhile isSpace = l := by
    cases l with
    | nil => rfl
    | cons c rest => rw [List.dropWhile_cons_of_neg]; simp [h c]
  have hend : (after.reverse ++ text.reverse).dropWhile isSpace = text.reverse := by
    rw [List.dropWhile_append_of_pos (by simpa using hafter), hkept (by simpa using htext)]
  rw [trimText, List.append_assoc, List.dropWhile_append_of_pos hbefore, List.dropWhile_append, hkept htext]
  split
  case isTrue hempty =>
    rw [List.isEmpty_iff.mp hempty, List.dropWhile_eq_nil_iff.mpr hafter]
    rfl
  case isFalse => rw [List.reverse_append, hend, List.reverse_reverse]

/-- A text without commas is one token. -/
theorem splitCommas_of_no_comma {t : List Char} (h : ∀ c ∈ t, c ≠ ',') : splitCommas t = [t] := by
  induction t with
  | nil => rfl
  | cons c rest ih =>
    obtain ⟨hc, hrest⟩ := List.forall_mem_cons.mp h
    simp only [splitCommas, if_neg hc, ih hrest]

/-- The first comma ends the first token. -/
theorem splitCommas_append_comma {t : List Char} (h : ∀ c ∈ t, c ≠ ',') (rest : List Char) :
    splitCommas (t ++ ',' :: rest) = t :: splitCommas rest := by
  induction t with
  | nil => simp only [List.nil_append, splitCommas, if_true]
  | cons c t ih =>
    obtain ⟨hc, ht⟩ := List.forall_mem_cons.mp h
    simp only [List.cons_append, splitCommas, if_neg hc, ih ht]

/-- Tokens joined by single commas are split into the same tokens (R340). -/
theorem splitCommas_intercalate {tokens : List (List Char)} (hne : tokens ≠ [])
    (h : ∀ t ∈ tokens, ∀ c ∈ t, c ≠ ',') : splitCommas (List.intercalate [','] tokens) = tokens := by
  induction tokens with
  | nil => exact absurd rfl hne
  | cons t ts ih =>
    obtain ⟨ht, hts⟩ := List.forall_mem_cons.mp h
    cases ts with
    | nil => rw [List.intercalate_singleton, splitCommas_of_no_comma ht]
    | cons u us =>
      rw [List.intercalate_cons_cons, List.append_assoc, List.singleton_append, splitCommas_append_comma ht,
        ih (List.cons_ne_nil u us) hts]

/-- The characters of joined tokens are those of the tokens, and commas. -/
theorem mem_intercalate_comma {tokens : List (List Char)} {c : Char} (h : c ∈ List.intercalate [','] tokens) :
    c = ',' ∨ ∃ t ∈ tokens, c ∈ t := by
  induction tokens with
  | nil => cases h
  | cons t ts ih =>
    cases ts with
    | nil =>
      rw [List.intercalate_singleton] at h
      exact .inr ⟨t, List.mem_cons_self, h⟩
    | cons u us =>
      rw [List.intercalate_cons_cons, List.append_assoc, List.singleton_append, List.mem_append, List.mem_cons] at h
      rcases h with h | h | h
      · exact .inr ⟨t, List.mem_cons_self, h⟩
      · exact .inl h
      · exact (ih h).imp_right fun ⟨w, hw, hc⟩ => ⟨w, List.mem_cons_of_mem t hw, hc⟩

/-- Settles O50: the whitespace around the joined tokens is trimmed, and their commas split them again. -/
theorem sourceIsCommaSeparated : Obligations.SourceIsCommaSeparated := by
  intro bits before after tokens hbefore hafter hne h
  have hvisible : ∀ c ∈ List.intercalate [','] tokens, isSpace c = false := by
    intro c hc
    rcases mem_intercalate_comma hc with rfl | ⟨t, ht, hc⟩
    · rfl
    · exact (h t ht c hc).2
  have htokens : splitCommas (trimText (before ++ List.intercalate [','] tokens ++ after)) = tokens := by
    rw [trimText_append (List.all_eq_true.mp hbefore) (List.all_eq_true.mp hafter) hvisible,
      splitCommas_intercalate hne fun t ht c hc => (h t ht c hc).1]
  exact ⟨htokens, by rw [parseSource, htokens]⟩

end Sys2Proof.Machine
end
